-- ==== Sys2Proof/Word.lean ====
section
/-! DEFINITION. The word type of CA-CORE (spec 00_scope.md R6, 10_state.md R23). -/

namespace Sys2Proof

/-- One byte: a memory cell, an opcode byte, an operand byte, an address (R6, R50, R70).
The width of a cell is stated by the spec (R6). -/
abbrev Byte := BitVec 8

/-- A register's word. R6 and R23 fix its width at 8 bits by the spec's decision D1
(DESIGN CHOICE of the spec, log 1, unsafe for a wider build). -/
abbrev Word := Byte

end Sys2Proof
end

