-- ==== Sys2Proof/Config.lean ====
section
/-! DEFINITION. The implementation parameters of CA-CORE with the values the spec fixes
(00_scope.md R6). The spec leaves no value free, so this file holds no free value. -/

namespace Sys2Proof.Config

/-- `MEM_SIZE` (N): 256 cells (R6, R7, R50; decision D2, log 2). -/
abbrev memSize : Nat := 256

/-- `NUM_REGS`: 8 registers (R6, R21). -/
abbrev numRegs : Nat := 8

/-- `SP_INDEX`: register 7 is the stack pointer (R6, R22). -/
abbrev spIndex : Fin numRegs := 7

/-- `SP_INIT`: 0xF4, the reset value of SP and the bound of a pop (R6, R25, R65; decision D5, log 5, unsafe). -/
def spInit : Word := 0xF4

/-- `PC_INIT`: 0 (R6, R28; decision D3, log 3, unsafe). -/
def pcInit : Byte := 0x00

/-- `REG_INIT`: the reset value of R0 to R6 (R25; decision D4, log 4, unsafe). -/
def regInit : Word := 0x00

/-- `MEM_FILL`: what a cell that nothing has written holds (R51; decision D7, log 7, unsafe). -/
def memFill : Byte := 0x00

/-- `FL_INIT`: every condition flag is clear at reset (R33; decision D6, log 6, unsafe). -/
def flInit : Bool := false

end Sys2Proof.Config
end

