-- ==== Sys2Proof/Machine/State.lean ====
section
/-! DEFINITION. The architectural state of CA-CORE (10_state.md R20), its reset value
(70_reset_and_hazards.md R230), and the reasons a step could stop. -/

namespace Sys2Proof.Machine

/-- A register's number, in [0, 8) (R21). -/
abbrev RegIndex := Fin Config.numRegs

/-- The condition flags FL.L, FL.G and FL.E (R30). The flag register has no byte layout that an
instruction could observe (R34; log 30), so the flags are three bits by name. -/
structure Flags where
  /-- FL.L -/
  less : Bool
  /-- FL.G -/
  greater : Bool
  /-- FL.E -/
  equal : Bool
deriving DecidableEq, Repr

/-- The run status (R35). -/
inductive Status where
  | running
  | halted
  | faulted
deriving DecidableEq, Repr

/-- The kinds of fault (60_exceptions.md R200). -/
inductive FaultKind where
  /-- Address or register index outside bounds (R201). -/
  | outOfRange
  /-- An opcode byte outside the table (R202). -/
  | unsupportedInstruction
  /-- Modulo by zero (R203). -/
  | arithmeticError
deriving DecidableEq, Repr

/-- The detail of a fault record (R200 to R203, decision D28). Its shape is the model's
(DESIGN CHOICE, log 24, unsafe): the spec gives an address, a register index or a reason. -/
inductive FaultDetail where
  /-- UnsupportedInstruction has no detail (R202). -/
  | empty
  /-- A register-index operand of 8 or more (R111). -/
  | registerIndex (b : Byte)
  /-- The address of a memory access outside [0, 256): an operand byte (R52, R53, R103). -/
  | address (a : Nat)
  /-- The next instruction's address, past 255 (R106, R143, R144). -/
  | nextAddress (a : Nat)
  /-- CALL's return address, past 255 (R140). -/
  | returnAddress (a : Nat)
  /-- A push at SP = 0, with the address it would have written (R130, R140). -/
  | stackOverflow (a : Int)
  /-- A pop at SP >= SP_INIT, with SP (R131, R141). -/
  | stackUnderflow (sp : Byte)
  /-- MODULO by zero (R203). -/
  | moduloByZero
deriving DecidableEq, Repr

/-- What a fault saves (R200). -/
structure FaultRecord where
  kind : FaultKind
  /-- The address of the faulting instruction's opcode byte. -/
  pc : Byte
  /-- The raw opcode byte fetched there. -/
  opcode : Byte
  detail : FaultDetail
deriving DecidableEq, Repr

/-- Memory: a list of (address, byte) pairs in one canonical form (`Memory.wf` in Machine/Ops.lean). -/
abbrev Memory := List Host.Cell

/-- The complete architectural state (R20). -/
structure State where
  /-- R0 to R7; R7 is SP (R21, R22). -/
  regs : Vector Word Config.numRegs
  /-- The program counter, always a valid address (R26). -/
  pc : Byte
  /-- The condition flags (R30). -/
  flags : Flags
  /-- The 256 cells of memory (R37, R50). -/
  mem : Memory
  /-- The run status (R35). -/
  status : Status
  /-- The fault record, present only when Faulted (R20, R35). -/
  fault : Option FaultRecord
  /-- The output stream, oldest value first (R36). -/
  out : List Word
deriving DecidableEq, Repr

/-- Why a step could stop outside the state. CA-CORE has no such reason, so no constructor: every
fault of the spec is one whose effect on the state R200 describes (status and fault record), and the
step that raises it answers that next state (log 22). -/
inductive Fault where
deriving DecidableEq, Repr

/-- Why a step could have no meaning. -/
inductive Refusal where
  /-- An instruction of the table that has no meaning yet: raised by an arm of exec alone, and by
  no arm of this model (safe: nothing could be proved about such an instruction). -/
  | notModelled (mnemonic : String)
deriving DecidableEq, Repr

/-- What an instruction or a step answers. -/
abbrev Result := Host.Outcome State Fault Refusal

/-- The state when the first step begins, with no program image loaded (R25, R28, R33, R35, R36,
R51, R230; logs 3 to 7). A program is loaded from outside (`loadImage` in Machine/Boot.lean; log 8). -/
def State.reset : State where
  regs := (Vector.replicate Config.numRegs Config.regInit).set Config.spIndex Config.spInit
  pc := Config.pcInit
  flags := ⟨Config.flInit, Config.flInit, Config.flInit⟩
  mem := []
  status := .running
  fault := none
  out := []

end Sys2Proof.Machine
end

