-- ==== Sys2Proof/Machine/Ops.lean ====
section
/-! DEFINITION. The operations every instruction is written over: registers, memory, raising a fault,
the stack, and moving the pc (spec 10_state.md, 20_memory.md, 60_exceptions.md, 40_engine.md).

An operation that may raise takes what follows it as its last argument: where it raises, nothing
after it happens (R107, R200). -/

namespace Sys2Proof.Machine

/-! ## Memory (20_memory.md) -/

/-- What a cell that nothing has written holds (R51; decision D7, log 7, unsafe). -/
def Memory.unlisted : Byte := Config.memFill

/-- `mem[a]`. -/
def Memory.read : Memory → Nat → Byte
  | [], _ => Memory.unlisted
  | (k, v) :: rest, a => if k = a then v else Memory.read rest a

/-- `mem[a] <- v`, and no other cell (R53). It keeps the canonical form: addresses rising, and no
entry that holds what an unlisted cell holds. -/
def Memory.write : Memory → Nat → Byte → Memory
  | [], a, v => if v = Memory.unlisted then [] else [(a, v)]
  | (k, w) :: rest, a, v =>
    if a < k then (if v = Memory.unlisted then (k, w) :: rest else (a, v) :: (k, w) :: rest)
    else if a = k then (if v = Memory.unlisted then rest else (a, v) :: rest)
    else (k, w) :: Memory.write rest a v

/-- The canonical form from address `lo` up: strictly rising addresses below N (R50), no entry equal
to an unlisted cell. -/
def Memory.wfFrom : Nat → Memory → Bool
  | _, [] => true
  | lo, (k, v) :: rest =>
    decide (lo ≤ k) && decide (k < Config.memSize) && decide (v ≠ Memory.unlisted) && Memory.wfFrom (k + 1) rest

/-- The canonical form of a memory. -/
def Memory.wf (m : Memory) : Bool := Memory.wfFrom 0 m

/-- Bytes written at increasing addresses from `a`; addresses outside memory do not exist and take none. -/
def Memory.writeBytes : Memory → Nat → List Byte → Memory
  | m, _, [] => m
  | m, a, b :: rest => Memory.writeBytes (if a < Config.memSize then Memory.write m a b else m) (a + 1) rest

/-! ## Registers and the other fields (10_state.md) -/

/-- `x[i]` read (R23). -/
def State.reg (s : State) (i : RegIndex) : Word := s.regs[i]

/-- `x[i] <- v` for a word v (R23). -/
def State.setReg (s : State) (i : RegIndex) (v : Word) : State := { s with regs := s.regs.set i v }

/-- `x[i] <- v` for an exact integer v: it stores `v mod 256` (R9, R23). -/
def State.storeReg (s : State) (i : RegIndex) (v : Nat) : State := s.setReg i (BitVec.ofNat 8 v)

/-- SP, the same as `x[7]` (R9, R22). -/
def State.sp (s : State) : Word := s.reg Config.spIndex

/-- `pc <- target` (R9). -/
def State.setPc (s : State) (target : Byte) : State := { s with pc := target }

/-- All three condition flags written (R31). -/
def State.setFlags (s : State) (f : Flags) : State := { s with flags := f }

/-- Memory replaced. -/
def State.setMem (s : State) (m : Memory) : State := { s with mem := m }

/-- `Out(v)`: the value appended to the output stream (R9, R36; log 20). -/
def State.emit (s : State) (v : Word) : State := { s with out := s.out ++ [v] }

/-- `halt` (R9, R108). -/
def State.halt (s : State) : State := { s with status := .halted }

/-! ## Taking a fault (60_exceptions.md R200) -/

/-- The state a fault leaves: status Faulted and the fault record, with the faulting instruction's
own address, which pc holds. Nothing else changes, no handler is entered, and there is no return
from a fault (R200, R206, R207; log 22). -/
def State.raised (s : State) (kind : FaultKind) (op : Byte) (detail : FaultDetail) : State :=
  { s with status := .faulted, fault := some ⟨kind, s.pc, op, detail⟩ }

/-- `raise K(info)` by the instruction whose opcode byte is `op` (R200): the one place a fault is taken. -/
def raise (kind : FaultKind) (op : Byte) (detail : FaultDetail) (s : State) : Result :=
  .next (s.raised kind op detail)

/-! ## Memory access by an instruction (R52, R53) -/

/-- `MemRead(a, 1)`: the byte is handed on, or OutOfRange is raised with the address (R52). -/
def memRead (op : Byte) (a : Nat) (s : State) (k : Byte → Result) : Result :=
  if a < Config.memSize then k (Memory.read s.mem a)
  else raise .outOfRange op (.address a) s

/-- `MemWrite(a, 1, v)`: the one cell is written, or OutOfRange is raised with the address (R53). -/
def memWrite (op : Byte) (a : Nat) (v : Byte) (s : State) (k : State → Result) : Result :=
  if a < Config.memSize then k (s.setMem (Memory.write s.mem a v))
  else raise .outOfRange op (.address a) s

/-! ## The stack (R65) -/

/-- A push of `v`: OutOfRange at SP = 0, before any write; else SP is decremented and `v` stored at
the new SP (R65, R130, R140; decision D12, log 12). -/
def pushByte (op : Byte) (v : Byte) (s : State) (k : State → Result) : Result :=
  if s.sp = 0 then raise .outOfRange op (.stackOverflow (-1)) s
  else
    let s1 := s.storeReg Config.spIndex (s.sp.toNat - 1)
    memWrite op s1.sp.toNat v s1 k

/-- A pop: OutOfRange at SP >= SP_INIT, before any write; else the byte at SP is handed on with the
state in which SP is incremented (R65, R131, R141; decision D13, log 13). -/
def popByte (op : Byte) (s : State) (k : Byte → State → Result) : Result :=
  if Config.spInit.toNat ≤ s.sp.toNat then raise .outOfRange op (.stackUnderflow s.sp) s
  else memRead op s.sp.toNat s fun v => k v (s.storeReg Config.spIndex (s.sp.toNat + 1))

/-! ## Moving the pc past an instruction (R29, R106, R143, R144) -/

/-- `pc <- pc + width`, or OutOfRange where that is 256 or more: the pc never wraps (R26, R29;
decision D10, log 10). -/
def movePc (op : Byte) (width : Nat) (s : State) : Result :=
  if Config.memSize ≤ s.pc.toNat + width then raise .outOfRange op (.nextAddress (s.pc.toNat + width)) s
  else .next (s.setPc (BitVec.ofNat 8 (s.pc.toNat + width)))

end Sys2Proof.Machine
end

