-- ==== Sys2Proof/Machine/Boot.lean ====
section
/-! DEFINITION. The host's load of a program image, as the core finds it (20_memory.md R51,
70_reset_and_hazards.md R230, R232). The loader itself, its file and its text format are outside the
core (00_scope.md R5). -/

namespace Sys2Proof.Machine

/-- The state in which a run of the image starts: reset, with the image's bytes from address 0. The
host rejects a literal outside 0 to 255 and an image of more than 256 bytes, and the core never
starts (R51, R232; decision D25, log 8). -/
def loadImage (image : List Nat) : Option State :=
  if image.length ≤ Config.memSize && image.all (fun v => decide (v < 256)) then
    some (State.reset.setMem (Memory.writeBytes State.reset.mem 0 (image.map (BitVec.ofNat 8))))
  else none

end Sys2Proof.Machine
end

