-- ==== Sys2Proof/Syntax.lean ====
section
/-! DEFINITION. The instructions of CA-CORE: one constructor for each row of the opcode table
(30_encoding.md R75, spec/opcode_table.json), with its operand bytes as R76 lays them out.
A register operand is the whole byte, 0 to 255, since the decoder does not mask it (R77). -/

namespace Sys2Proof

/-- The instruction set (R75). `a` is operand byte 1, `b` or `imm` operand byte 2 (R76). -/
inductive Instr where
  /-- HALT (R108). -/
  | halt
  /-- LDI Ra, imm8 (R120). -/
  | ldi (a imm : Byte)
  /-- PRINT Ra (R121). -/
  | print (a : Byte)
  /-- PUSH Ra (R130). -/
  | push (a : Byte)
  /-- POP Ra (R131). -/
  | pop (a : Byte)
  /-- CALL Ra (R140). -/
  | call (a : Byte)
  /-- RETURN (R141). -/
  | ret
  /-- COMPARE Ra, Rb (R164). -/
  | compare (a b : Byte)
  /-- JUMP Ra (R142). -/
  | jump (a : Byte)
  /-- JUMP-IF-EQUAL Ra (R143). -/
  | jumpIfEqual (a : Byte)
  /-- JUMP-IF-NOT-EQUAL Ra (R144). -/
  | jumpIfNotEqual (a : Byte)
  /-- ADD Ra, Rb (R161). -/
  | add (a b : Byte)
  /-- MULTIPLY Ra, Rb (R162). -/
  | multiply (a b : Byte)
  /-- AND Ra, Rb (R165). -/
  | and (a b : Byte)
  /-- OR Ra, Rb (R166). -/
  | or (a b : Byte)
  /-- XOR Ra, Rb (R167). -/
  | xor (a b : Byte)
  /-- NOT Ra: one operand (R168; conflict C2). -/
  | not (a : Byte)
  /-- SHIFT-LEFT Ra, Rb (R169). -/
  | shiftLeft (a b : Byte)
  /-- SHIFT-RIGHT Ra, Rb (R170). -/
  | shiftRight (a b : Byte)
  /-- MODULO Ra, Rb (R163). -/
  | modulo (a b : Byte)
deriving DecidableEq, Repr

end Sys2Proof
end

