-- ==== Sys2Proof/Decode.lean ====
section
/-! DEFINITION. The encoding of 30_encoding.md: the opcode table (R75), the fields of an opcode byte
(R71 to R73), the decoder on any list of bytes, and the encoder. -/

namespace Sys2Proof

/-! ## The opcode bytes (R75) -/

def Opcode.halt : Byte := 0x01
def Opcode.ldi : Byte := 0x82
def Opcode.print : Byte := 0x47
def Opcode.push : Byte := 0x45
def Opcode.pop : Byte := 0x46
def Opcode.call : Byte := 0x50
def Opcode.ret : Byte := 0x11
def Opcode.compare : Byte := 0xA7
def Opcode.jump : Byte := 0x54
def Opcode.jumpIfEqual : Byte := 0x55
def Opcode.jumpIfNotEqual : Byte := 0x56
def Opcode.add : Byte := 0xA0
def Opcode.multiply : Byte := 0xA2
def Opcode.and : Byte := 0xA8
def Opcode.or : Byte := 0xAA
def Opcode.xor : Byte := 0xAB
def Opcode.not : Byte := 0x69
def Opcode.shiftLeft : Byte := 0xAC
def Opcode.shiftRight : Byte := 0xAD
def Opcode.modulo : Byte := 0xA4

/-! ## The fields of an opcode byte (R71 to R73, R104) -/

/-- `n = op[7:6]`, the operand count (R71). -/
def operandCount (op : Byte) : Nat := (op.extractLsb' 6 2).toNat

/-- `op[5]`, the ALU-class bit (R72). The engine does not read it: dispatch is by the whole byte (R74). -/
def isAlu (op : Byte) : Bool := op.getLsbD 5

/-- `op[4]`, the sets-PC bit (R73). -/
def setsPc (op : Byte) : Bool := op.getLsbD 4

/-! ## The table and the decoder -/

/-- The four formats of R76, each with how its operand bytes make the instruction. -/
inductive Format where
  /-- No operand byte. -/
  | z (i : Instr)
  /-- One register operand. -/
  | r (mk : Byte → Instr)
  /-- Two register operands. -/
  | rr (mk : Byte → Byte → Instr)
  /-- A register operand and an immediate. -/
  | ri (mk : Byte → Byte → Instr)

/-- The operand bytes a format has (R76). -/
def Format.operands : Format → Nat
  | .z _ => 0
  | .r _ => 1
  | .rr _ => 2
  | .ri _ => 2

/-- The complete set of opcodes, in the order of the table of R75. -/
def opcodeTable : List (Byte × Format) :=
  [ (Opcode.halt, .z .halt),
    (Opcode.ldi, .ri .ldi),
    (Opcode.print, .r .print),
    (Opcode.push, .r .push),
    (Opcode.pop, .r .pop),
    (Opcode.call, .r .call),
    (Opcode.ret, .z .ret),
    (Opcode.compare, .rr .compare),
    (Opcode.jump, .r .jump),
    (Opcode.jumpIfEqual, .r .jumpIfEqual),
    (Opcode.jumpIfNotEqual, .r .jumpIfNotEqual),
    (Opcode.add, .rr .add),
    (Opcode.multiply, .rr .multiply),
    (Opcode.and, .rr .and),
    (Opcode.or, .rr .or),
    (Opcode.xor, .rr .xor),
    (Opcode.not, .r .not),
    (Opcode.shiftLeft, .rr .shiftLeft),
    (Opcode.shiftRight, .rr .shiftRight),
    (Opcode.modulo, .rr .modulo) ]

/-- The first row whose opcode is the whole byte `op`: dispatch matches no part of it (R74, R105; log 9). -/
def lookupOpcode (op : Byte) : List (Byte × Format) → Option Format
  | [] => none
  | (o, f) :: rest => if op = o then some f else lookupOpcode op rest

/-- `op in OPCODES` (R103): the format of an opcode byte of the table, none for the other 236 (R80). -/
def formatOf (op : Byte) : Option Format := lookupOpcode op opcodeTable

/-- Why bytes are no instruction. -/
inductive DecodeError where
  /-- The opcode byte is not one of the table's (R80). -/
  | unsupported (op : Byte)
  /-- Byte `k` of the instruction (0 the opcode, 1 and 2 the operand bytes) lies past the end of the bytes (R103). -/
  | missingByte (k : Nat)
deriving DecidableEq, Repr

/-- The instruction at the head of a list of bytes, and the bytes after it. The opcode is checked
before any operand byte is taken, and only the operand bytes the format has are taken (R103). -/
def decode : List Byte → Except DecodeError (Instr × List Byte)
  | [] => .error (.missingByte 0)
  | op :: rest =>
    match formatOf op, rest with
    | none, _ => .error (.unsupported op)
    | some (.z i), r => .ok (i, r)
    | some (.r _), [] => .error (.missingByte 1)
    | some (.r mk), a :: r => .ok (mk a, r)
    | some (.rr _), [] => .error (.missingByte 1)
    | some (.rr _), [_] => .error (.missingByte 2)
    | some (.rr mk), a :: b :: r => .ok (mk a b, r)
    | some (.ri _), [] => .error (.missingByte 1)
    | some (.ri _), [_] => .error (.missingByte 2)
    | some (.ri mk), a :: b :: r => .ok (mk a b, r)

/-! ## The encoder (R70, R75, R76) -/

/-- The bytes of an instruction, from its lowest address up. -/
def encode : Instr → List Byte
  | .halt => [Opcode.halt]
  | .ldi a imm => [Opcode.ldi, a, imm]
  | .print a => [Opcode.print, a]
  | .push a => [Opcode.push, a]
  | .pop a => [Opcode.pop, a]
  | .call a => [Opcode.call, a]
  | .ret => [Opcode.ret]
  | .compare a b => [Opcode.compare, a, b]
  | .jump a => [Opcode.jump, a]
  | .jumpIfEqual a => [Opcode.jumpIfEqual, a]
  | .jumpIfNotEqual a => [Opcode.jumpIfNotEqual, a]
  | .add a b => [Opcode.add, a, b]
  | .multiply a b => [Opcode.multiply, a, b]
  | .and a b => [Opcode.and, a, b]
  | .or a b => [Opcode.or, a, b]
  | .xor a b => [Opcode.xor, a, b]
  | .not a => [Opcode.not, a]
  | .shiftLeft a b => [Opcode.shiftLeft, a, b]
  | .shiftRight a b => [Opcode.shiftRight, a, b]
  | .modulo a b => [Opcode.modulo, a, b]

/-! ## The opcode table's numbering of bits -/

/-- The three bytes of an instruction whose bits are `w`, numbered as spec/opcode_table.json numbers
them: bits 7..0 are the first byte, bits 15..8 the second, bits 23..16 the third. Bits from `nbits` up are 0. -/
def tableWordBytes (nbits w : Nat) : List Byte :=
  let v := w % 2 ^ nbits
  [BitVec.ofNat 8 v, BitVec.ofNat 8 (v / 2 ^ 8), BitVec.ofNat 8 (v / 2 ^ 16)]

/-- The instruction the decoder reads from those bytes. -/
def decodeTableWord (nbits w : Nat) : Option Instr :=
  match decode (tableWordBytes nbits w) with
  | .ok (i, _) => some i
  | .error _ => none

end Sys2Proof
end

