-- ==== Sys2Proof/Machine/Flags.lean ====
section
/-! DEFINITION. The one flag computation of the ISA: COMPARE's (44_alu.md R164, 10_state.md R31). -/

namespace Sys2Proof.Machine

/-- Every flag clear. -/
def Flags.clear : Flags := ⟨false, false, false⟩

/-- The flags after COMPARE of `x` with `y`: all three cleared, then exactly one set. The comparison is
unsigned (R164; decision D16, log 16). -/
def compareFlags (x y : Word) : Flags :=
  if x.toNat < y.toNat then { Flags.clear with less := true }
  else if y.toNat < x.toNat then { Flags.clear with greater := true }
  else { Flags.clear with equal := true }

end Sys2Proof.Machine
end

