-- ==== Sys2Proof/Machine/Operands.lean ====
section
/-! DEFINITION. The operand forms of 30_encoding.md R76: none, one register, two registers, a
register and an immediate. An immediate is its byte and needs no operation (R78). -/

namespace Sys2Proof.Machine

/-- `reg(b)`: the register the byte names, or OutOfRange with the index where it is 8 or more (R111). -/
def withReg (op b : Byte) (s : State) (k : RegIndex → Result) : Result :=
  if h : b.toNat < Config.numRegs then k ⟨b.toNat, h⟩
  else raise .outOfRange op (.registerIndex b) s

/-- Two register operands, A checked before B (R111, R160). -/
def withRegs (op a b : Byte) (s : State) (k : RegIndex → RegIndex → Result) : Result :=
  withReg op a s fun ra => withReg op b s fun rb => k ra rb

end Sys2Proof.Machine
end

