-- ==== Sys2Proof/Machine/Alu.lean ====
section
/-! DEFINITION. The ten ALU operations (44_alu.md). The results are exact on non-negative integers and
are reduced modulo 256 where they are stored (R9, R23, R171). The dispatch loop advances the pc (R106). -/

namespace Sys2Proof.Machine

/-! ## The computations (R161 to R170) -/

def aluAdd (x y : Nat) : Nat := x + y
def aluMultiply (x y : Nat) : Nat := x * y
/-- The unsigned remainder (R163; decision D17, log 16). -/
def aluModulo (x y : Nat) : Nat := x % y
def aluAnd (x y : Nat) : Nat := x &&& y
def aluOr (x y : Nat) : Nat := x ||| y
def aluXor (x y : Nat) : Nat := x ^^^ y
/-- `(~x) & 0xFF`, which equals `255 - x` for a word (R168). -/
def aluNot (x : Nat) : Nat := 255 - x
/-- The amount is the whole value of `y` (R169; decision D15, log 15). -/
def aluShiftLeft (x y : Nat) : Nat := x <<< y
/-- A logical shift by the whole value of `y` (R170; decision D15, log 15). -/
def aluShiftRight (x y : Nat) : Nat := x >>> y

/-! ## The operand forms (R160) -/

/-- A two-operand operation: A then B checked, both read, the result stored in `x[a]` (R160). -/
def aluBinary (op : Byte) (f : Nat → Nat → Nat) (a b : Byte) (s : State) : Result :=
  withRegs op a b s fun ra rb => .next (s.storeReg ra (f (s.reg ra).toNat (s.reg rb).toNat))

/-- A one-operand operation (R168). -/
def aluUnary (op : Byte) (f : Nat → Nat) (a : Byte) (s : State) : Result :=
  withReg op a s fun ra => .next (s.storeReg ra (f (s.reg ra).toNat))

/-! ## The instructions -/

/-- COMPARE: the flags alone are written (R164). -/
def execCompare (a b : Byte) (s : State) : Result :=
  withRegs Opcode.compare a b s fun ra rb => .next (s.setFlags (compareFlags (s.reg ra) (s.reg rb)))

/-- ADD (R161). -/
def execAdd (a b : Byte) (s : State) : Result := aluBinary Opcode.add aluAdd a b s

/-- MULTIPLY (R162). -/
def execMultiply (a b : Byte) (s : State) : Result := aluBinary Opcode.multiply aluMultiply a b s

/-- AND (R165). -/
def execAnd (a b : Byte) (s : State) : Result := aluBinary Opcode.and aluAnd a b s

/-- OR (R166). -/
def execOr (a b : Byte) (s : State) : Result := aluBinary Opcode.or aluOr a b s

/-- XOR (R167). -/
def execXor (a b : Byte) (s : State) : Result := aluBinary Opcode.xor aluXor a b s

/-- NOT (R168; decision D32, log 27). -/
def execNot (a : Byte) (s : State) : Result := aluUnary Opcode.not aluNot a s

/-- SHIFT-LEFT (R169). -/
def execShiftLeft (a b : Byte) (s : State) : Result := aluBinary Opcode.shiftLeft aluShiftLeft a b s

/-- SHIFT-RIGHT (R170). -/
def execShiftRight (a b : Byte) (s : State) : Result := aluBinary Opcode.shiftRight aluShiftRight a b s

/-- MODULO: a divisor of 0 raises ArithmeticError, after both register checks and before the write (R163). -/
def execModulo (a b : Byte) (s : State) : Result :=
  withRegs Opcode.modulo a b s fun ra rb =>
    if s.reg rb = 0 then raise .arithmeticError Opcode.modulo .moduloByZero s
    else .next (s.storeReg ra (aluModulo (s.reg ra).toNat (s.reg rb).toNat))

end Sys2Proof.Machine
end

