-- ==== Sys2Proof/Machine/Control.lean ====
section
/-! DEFINITION. CALL, RETURN, JUMP, JUMP-IF-EQUAL and JUMP-IF-NOT-EQUAL (43_control.md). Each sets
the pc itself; the dispatch loop adds nothing (R106). -/

namespace Sys2Proof.Machine

/-- CALL: the target is read before SP changes; a return address of 256 raises before the push
(R140; decisions D11, D12, D18, logs 11, 12, 17). -/
def execCall (a : Byte) (s : State) : Result :=
  withReg Opcode.call a s fun ra =>
    if Config.memSize ≤ s.pc.toNat + 2 then
      raise .outOfRange Opcode.call (.returnAddress (s.pc.toNat + 2)) s
    else pushByte Opcode.call (BitVec.ofNat 8 (s.pc.toNat + 2)) s fun t => .next (t.setPc (s.reg ra))

/-- RETURN: pc is popped (R141). -/
def execReturn (s : State) : Result :=
  popByte Opcode.ret s fun v t => .next (t.setPc v)

/-- JUMP: `pc <- x[a]` (R142). -/
def execJump (a : Byte) (s : State) : Result :=
  withReg Opcode.jump a s fun ra => .next (s.setPc (s.reg ra))

/-- A conditional jump: the register is checked whether or not the jump is taken (decision D31, log 26);
where it is not, the rule itself moves the pc past its two bytes, once (R143, R144; decision D19, log 18). -/
def jumpIf (op : Byte) (taken : Bool) (a : Byte) (s : State) : Result :=
  withReg op a s fun ra => if taken then .next (s.setPc (s.reg ra)) else movePc op 2 s

/-- JUMP-IF-EQUAL: taken where FL.E = 1 (R143). -/
def execJumpIfEqual (a : Byte) (s : State) : Result :=
  jumpIf Opcode.jumpIfEqual s.flags.equal a s

/-- JUMP-IF-NOT-EQUAL: taken where FL.E = 0 (R144). -/
def execJumpIfNotEqual (a : Byte) (s : State) : Result :=
  jumpIf Opcode.jumpIfNotEqual (!s.flags.equal) a s

end Sys2Proof.Machine
end

