-- ==== Sys2Proof/Machine/RegisterIo.lean ====
section
/-! DEFINITION. HALT (40_engine.md R108), LDI and PRINT (41_register_io.md). The dispatch loop
advances the pc after LDI and PRINT (R106; Machine/Engine.lean; log 32). -/

namespace Sys2Proof.Machine

/-- HALT: status becomes Halted; nothing else changes and pc keeps the HALT byte's address
(R108; decision D20, log 19). -/
def execHalt (s : State) : Result := .next s.halt

/-- LDI: `x[a] <- b2` (R120). -/
def execLdi (a imm : Byte) (s : State) : Result :=
  withReg Opcode.ldi a s fun ra => .next (s.setReg ra imm)

/-- PRINT: `Out(x[a])` (R121). -/
def execPrint (a : Byte) (s : State) : Result :=
  withReg Opcode.print a s fun ra => .next (s.emit (s.reg ra))

end Sys2Proof.Machine
end

