-- ==== Sys2Proof/Machine/Stack.lean ====
section
/-! DEFINITION. PUSH and POP (42_stack.md). The dispatch loop advances the pc after them (R106). -/

namespace Sys2Proof.Machine

/-- PUSH: the source is read before SP changes, so PUSH R7 stores the old SP (R130; decision D18, log 17). -/
def execPush (a : Byte) (s : State) : Result :=
  withReg Opcode.push a s fun ra => pushByte Opcode.push (s.reg ra) s .next

/-- POP: the destination is written last, so POP R7 leaves the popped byte in R7 (R131; decision D18, log 17). -/
def execPop (a : Byte) (s : State) : Result :=
  withReg Opcode.pop a s fun ra => popByte Opcode.pop s fun v t => .next (t.setReg ra v)

end Sys2Proof.Machine
end

