-- ==== Sys2Proof/Machine/Engine.lean ====
section
/-! DEFINITION. The phases around EXECUTE: FETCH, DECODE and ADVANCE (40_engine.md R102, R103, R106). -/

namespace Sys2Proof.Machine

/-- FETCH: `op <- MemRead(pc, 1)`. It cannot fault, since pc is always an address (R102). -/
def opcodeAt (s : State) : Byte := Memory.read s.mem s.pc.toNat

/-- The bytes of memory from pc on, at most the three an instruction can have (R70); addresses past
255 hold none. The decoder takes the opcode and its operand bytes from them. A read has no side
effect (R52, R57), so handing over a byte that is not taken is no access (DEDUCED, log 31, safe). -/
def instructionBytes (s : State) : List Byte :=
  [0, 1, 2].filterMap fun k =>
    if s.pc.toNat + k < Config.memSize then some (Memory.read s.mem (s.pc.toNat + k)) else none

/-- DECODE: the instruction at pc, or why there is none (R103). It changes no state (R104). -/
def decodeAt (s : State) : Except DecodeError Instr :=
  match decode (instructionBytes s) with
  | .ok (i, _) => .ok i
  | .error e => .error e

/-- The fault DECODE raises: UnsupportedInstruction with an empty detail (R202), or OutOfRange with the
address of the operand byte that lies past 255 (R103). -/
def raiseDecode (e : DecodeError) (s : State) : Result :=
  match e with
  | .unsupported _ => raise .unsupportedInstruction (opcodeAt s) .empty s
  | .missingByte k => raise .outOfRange (opcodeAt s) (.address (s.pc.toNat + k)) s

/-- ADVANCE, after EXECUTE answered `r`: an instruction that raised or halted ended its step; one whose
opcode bit 4 is 1 has set the pc; any other has the pc moved by 1 + n, once, and the OutOfRange of
that move leaves the instruction's effects in place (R106, R107; decision D10, log 10). -/
def advance (op : Byte) (r : Result) : Result :=
  match r with
  | .next t =>
    match t.status, setsPc op with
    | .running, false => movePc op (1 + operandCount op) t
    | _, _ => .next t
  | .fault f => .fault f
  | .refused f => .refused f

end Sys2Proof.Machine
end

