-- ==== Sys2Proof/Machine/Step.lean ====
section
/-! DEFINITION. One step of the engine: FETCH, DECODE, EXECUTE, ADVANCE (40_engine.md R100, R107). -/

namespace Sys2Proof.Machine

/-- One step. In Running it executes one whole instruction or takes one fault (R107). In Halted and
Faulted the engine takes no step and no state changes again (R101; decision D30): the model says so by
answering the same state (DESIGN CHOICE, log 23, safe). -/
def step (s : State) : Host.Outcome State Fault Refusal :=
  match s.status with
  | .running =>
    match decodeAt s with
    | .ok i => advance (opcodeAt s) (exec i s)
    | .error e => raiseDecode e s
  | .halted => .next s
  | .faulted => .next s

/-- The state with an instruction's bytes stored at pc, where FETCH reads it, so that the next step runs
it. The engine fetches only while Running (R101), so a run that had ended is Running again, as after the
new load that R207 asks for; at reset that changes nothing (log 8). -/
def State.withFetchWord (s : State) (nbits w : Nat) : State :=
  { s with
    mem := Memory.writeBytes s.mem s.pc.toNat (tableWordBytes nbits w)
    status := .running
    fault := none }

end Sys2Proof.Machine
end

