-- ==== Sys2Proof/WellFormed.lean ====
section
/-! DEFINITION. Well-formed instructions: every register operand names a register (10_state.md R21).
An instruction that is not well-formed still decodes (30_encoding.md R77); it raises OutOfRange when
it uses the index (40_engine.md R111). An immediate is any byte (R78). -/

namespace Sys2Proof

/-- A register index is legal if and only if it is in [0, 8) (R21). -/
def legalReg (b : Byte) : Bool := decide (b.toNat < Config.numRegs)

/-- The operand byte that names register `r` (R77). -/
def regByte (r : Fin Config.numRegs) : Byte := BitVec.ofNat 8 r.val

/-- The register operands of an instruction, in the order they are checked: A, then B (R76, R111). -/
def Instr.regOperands : Instr → List Byte
  | .halt => []
  | .ldi a _ => [a]
  | .print a => [a]
  | .push a => [a]
  | .pop a => [a]
  | .call a => [a]
  | .ret => []
  | .compare a b => [a, b]
  | .jump a => [a]
  | .jumpIfEqual a => [a]
  | .jumpIfNotEqual a => [a]
  | .add a b => [a, b]
  | .multiply a b => [a, b]
  | .and a b => [a, b]
  | .or a b => [a, b]
  | .xor a b => [a, b]
  | .not a => [a]
  | .shiftLeft a b => [a, b]
  | .shiftRight a b => [a, b]
  | .modulo a b => [a, b]

/-- Every register operand of the instruction is legal. -/
def Instr.wellFormed (i : Instr) : Bool := i.regOperands.all legalReg

end Sys2Proof
end

