-- ==== Sys2Proof/Safety.lean ====
section
/-! DEFINITION. The terms claims are made in: runs, how they end, and what every state of a run keeps. -/

namespace Sys2Proof.Machine

/-- A run has ended: the engine takes no further step (R101, R239). -/
def State.ended (s : State) : Prop := s.status = .halted ∨ s.status = .faulted

/-- No fault has been taken. -/
def State.faultFree (s : State) : Prop := s.status ≠ .faulted

/-- `t` is reached from `s` by some number of steps. -/
inductive Reaches : State → State → Prop where
  | refl (s : State) : Reaches s s
  | tail {s t u : State} : Reaches s t → step t = .next u → Reaches s u

/-- `s` is a state of some run of some program image (R230, R232). -/
def Reachable (s : State) : Prop := ∃ image start, loadImage image = some start ∧ Reaches start s

/-- The step from `s` reaches ADVANCE with the state `u` that EXECUTE left, and moving the pc past the
instruction would reach address 256 (R106; the classes of R205 that come earlier have not applied). -/
def AdvancesPastMemory (s u : State) : Prop :=
  ∃ i, decodeAt s = .ok i ∧ exec i s = .next u ∧ u.status = .running ∧ setsPc (opcodeAt s) = false ∧
    s.pc.toNat + (encode i).length = 256

/-- EXECUTE of a list of instructions one after another, up to the first that ends the run. -/
def execAll : List Instr → State → Result
  | [], s => .next s
  | i :: rest, s =>
    match exec i s with
    | .next t => match t.status with
      | .running => execAll rest t
      | .halted => .next t
      | .faulted => .next t
    | .fault f => .fault f
    | .refused r => .refused r

/-- A balanced sequence of PUSH and POP in which no POP names R7: each POP is matched with an earlier PUSH (R132). -/
inductive Balanced : List Instr → Prop where
  | nil : Balanced []
  | pair (ra rb : RegIndex) {mid : List Instr} : rb ≠ Config.spIndex → Balanced mid →
      Balanced (.push (regByte ra) :: mid ++ [.pop (regByte rb)])
  | append {xs ys : List Instr} : Balanced xs → Balanced ys → Balanced (xs ++ ys)

/-- At most one of the three condition flags is set: all are clear at reset (R33) and a COMPARE leaves
exactly one set (R31). -/
def Flags.atMostOne (f : Flags) : Bool :=
  !(f.less && f.greater) && !(f.less && f.equal) && !(f.greater && f.equal)

/-- Exactly one of the three condition flags is set (R31). -/
def Flags.exactlyOne (f : Flags) : Bool := f.atMostOne && (f.less || f.greater || f.equal)

/-- A fault record is one the spec's tables have: the cause, the instructions that raise it, and the
detail (R201, R202, R203). -/
def FaultRecord.tabled (r : FaultRecord) : Prop :=
  match r.kind, r.detail with
  | .outOfRange, .registerIndex b =>
      8 ≤ b.toNat ∧ ∃ f, formatOf r.opcode = some f ∧ 1 ≤ f.operands
  | .outOfRange, .address a =>
      a = 256 ∧ ∃ f, formatOf r.opcode = some f ∧ 256 ≤ r.pc.toNat + f.operands
  | .outOfRange, .nextAddress a =>
      a = 256 ∧ ∃ f, formatOf r.opcode = some f ∧ r.pc.toNat + 1 + f.operands = 256 ∧
        (setsPc r.opcode = false ∨ r.opcode = Opcode.jumpIfEqual ∨ r.opcode = Opcode.jumpIfNotEqual)
  | .outOfRange, .returnAddress a => a = 256 ∧ r.opcode = Opcode.call ∧ r.pc.toNat = 254
  | .outOfRange, .stackOverflow a => a = -1 ∧ (r.opcode = Opcode.push ∨ r.opcode = Opcode.call)
  | .outOfRange, .stackUnderflow sp =>
      Config.spInit.toNat ≤ sp.toNat ∧ (r.opcode = Opcode.pop ∨ r.opcode = Opcode.ret)
  | .unsupportedInstruction, .empty => formatOf r.opcode = none
  | .arithmeticError, .moduloByZero => r.opcode = Opcode.modulo
  | _, _ => False

/-- What every state of a run keeps. -/
structure State.Inv (s : State) : Prop where
  /-- Memory is in its canonical form, so it lists addresses of [0, 256) only (R50). -/
  memory : Memory.wf s.mem = true
  /-- At most one condition flag is set (R31, R33). -/
  flags : s.flags.atMostOne = true
  /-- The fault record is present exactly when the status is Faulted (R20, R35). -/
  fault_present : s.fault.isSome = decide (s.status = .faulted)
  /-- The fault record names the address pc still holds (R200). -/
  fault_here : ∀ r, s.fault = some r → r.pc = s.pc
  /-- The fault record is one of the spec's tables (R201 to R203). -/
  fault_tabled : ∀ r, s.fault = some r → r.tabled

end Sys2Proof.Machine
end

