-- ==== Sys2Proof/Certificates/Slice0/Obligations.lean ====
section
/-! DEFINITION. The statements for the provers. `regByte r` is the operand byte that names register `r`, so
a statement over `regByte r` holds for every legal operand; an operand that names no register has
statements of its own (IllegalRegisterOperandRaises). Register 7 is SP. Opcodes are written as bytes. -/

open Sys2Proof Sys2Proof.Machine

/-! ## Encoding (30_encoding.md) -/

/-- Decoding an encoded instruction gives it back, with every operand at every value and whatever bytes
follow (R70, R75, R76). -/
def Obligations.DecodeOfEncodeIsTheInstruction : Prop :=
  ∀ (i : Instr) (rest : List Byte), decode (encode i ++ rest) = .ok (i, rest)

/-- The other direction: bytes that decode are the instruction's own encoding and what follows it, so
no two encodings stand for one instruction and no bit is dropped (R70, R76). -/
def Obligations.DecodedBytesAreTheEncoding : Prop :=
  ∀ (bytes : List Byte) (i : Instr) (rest : List Byte),
    decode bytes = .ok (i, rest) → bytes = encode i ++ rest

/-- When decoding fails, and by which name: no byte; an opcode byte outside the table, whatever follows
it; or too few operand bytes (R103; the order of the two checks is the spec's decision D9, log 9). -/
def Obligations.DecodeFailsExactlyWhen : Prop :=
  ∀ (bytes : List Byte) (e : DecodeError), decode bytes = .error e ↔
    (bytes = [] ∧ e = .missingByte 0) ∨
    ∃ op rest, bytes = op :: rest ∧
      ((formatOf op = none ∧ e = .unsupported op) ∨
       ∃ f, formatOf op = some f ∧ rest.length < operandCount op ∧ e = .missingByte (rest.length + 1))

/-- Exactly 20 byte values are opcodes (R75 as its decimal column has them); the other 236 are illegal (R80). -/
def Obligations.TheOpcodesAreThese : Prop :=
  let opcodes : List Nat := [1, 130, 71, 69, 70, 80, 17, 167, 84, 85, 86, 160, 162, 168, 170, 171, 105, 172, 173, 164]
  opcodes.Nodup ∧ opcodes.length = 20 ∧ ∀ op : Byte, (formatOf op).isSome = opcodes.contains op.toNat

/-- The opcode's own bits: bits 7:6 are the operand count and never 3 (R71), bit 5 is set in exactly the
ten ALU operations (R72), bit 4 in exactly CALL, RETURN, JUMP and the two conditional jumps (R73). -/
def Obligations.OpcodeBitsSayCountAluAndSetsPc : Prop :=
  ∀ (op : Byte) (f : Format), formatOf op = some f →
    operandCount op = f.operands ∧ operandCount op ≤ 2 ∧ op.toNat < 0xC0 ∧
    (isAlu op = true ↔ op.toNat ∈ [0xA0, 0xA2, 0xA4, 0xA7, 0xA8, 0xAA, 0xAB, 0x69, 0xAC, 0xAD]) ∧
    (setsPc op = true ↔ op.toNat ∈ [0x50, 0x11, 0x54, 0x55, 0x56])

/-- Words written out from the encodings of R75 and R76, one for every row and with operand bytes that
differ, read by the decoder; and two in the opcode table's numbering of bits, with one that is no instruction. -/
def Obligations.WrittenWordsDecode : Prop :=
  decode [0b00000001] = .ok (.halt, []) ∧
  decode [0b10000010, 0, 8] = .ok (.ldi 0 8, []) ∧
  decode [0b01000111, 4] = .ok (.print 4, []) ∧
  decode [0b01000101, 3] = .ok (.push 3, []) ∧
  decode [0b01000110, 2] = .ok (.pop 2, []) ∧
  decode [0b01010000, 1] = .ok (.call 1, []) ∧
  decode [0b00010001] = .ok (.ret, []) ∧
  decode [0b10100111, 2, 5] = .ok (.compare 2 5, []) ∧
  decode [0b01010100, 6] = .ok (.jump 6, []) ∧
  decode [0b01010101, 7] = .ok (.jumpIfEqual 7, []) ∧
  decode [0b01010110, 5] = .ok (.jumpIfNotEqual 5, []) ∧
  decode [0b10100000, 1, 2] = .ok (.add 1 2, []) ∧
  decode [0b10100010, 3, 4] = .ok (.multiply 3 4, []) ∧
  decode [0b10101000, 5, 6] = .ok (.and 5 6, []) ∧
  decode [0b10101010, 7, 0] = .ok (.or 7 0, []) ∧
  decode [0b10101011, 0, 1] = .ok (.xor 0 1, []) ∧
  decode [0b01101001, 6] = .ok (.not 6, []) ∧
  decode [0b10101100, 2, 3] = .ok (.shiftLeft 2 3, []) ∧
  decode [0b10101101, 4, 5] = .ok (.shiftRight 4 5, []) ∧
  decode [0b10100100, 6, 7] = .ok (.modulo 6 7, []) ∧
  decodeTableWord 24 0x080082 = some (.ldi 0 8) ∧
  decodeTableWord 24 0x0201A4 = some (.modulo 1 2) ∧
  decodeTableWord 8 0x00 = none

/-! ## The engine (40_engine.md) -/

/-- A step of a running machine runs the decoded instruction: EXECUTE answers a state; if that ended the
run, or opcode bit 4 is 1, it is the step's; otherwise the pc moves by 1 + n, and where that would
reach 256 the step ends in OutOfRange with EXECUTE's effects kept (R106, R107; that the pc never
reaches 256 is the spec's decision D10, log 10). -/
def Obligations.StepRunsTheDecodedInstruction : Prop :=
  ∀ (s : State) (i : Instr), s.status = .running → decodeAt s = .ok i →
    ∃ t, exec i s = .next t ∧
      step s =
        if t.status = .running ∧ setsPc (Memory.read s.mem s.pc.toNat) = false then
          if s.pc.toNat + (encode i).length < 256 then
            .next { t with pc := BitVec.ofNat 8 (s.pc.toNat + (encode i).length) }
          else
            .next { t with
              status := .faulted
              fault := some ⟨.outOfRange, s.pc, Memory.read s.mem s.pc.toNat,
                .nextAddress (s.pc.toNat + (encode i).length)⟩ }
        else .next t

/-- An instruction whose bytes lie in memory at pc is the one decoded there (R70, R102, R103). -/
def Obligations.InstructionInMemoryIsDecoded : Prop :=
  ∀ (s : State) (i : Instr), s.pc.toNat + (encode i).length ≤ 256 →
    (∀ k b, (encode i)[k]? = some b → Memory.read s.mem (s.pc.toNat + k) = b) →
    decodeAt s = .ok i

/-- An opcode outside the table is never skipped or treated as a no-op: the step faults and the pc stays (R112). -/
def Obligations.IllegalOpcodeIsNeverSkipped : Prop :=
  ∀ s : State, s.status = .running → formatOf (Memory.read s.mem s.pc.toNat) = none →
    ∃ t, step s = .next t ∧ t.status = .faulted ∧ t.pc = s.pc

/-- An opcode outside the table raises UnsupportedInstruction with the pc and the byte, and changes nothing
else; nothing else raises it (R80, R200, R202). That this holds at pc 254 and 255 too is the spec's
decision D9 (log 9). -/
def Obligations.UnsupportedInstructionExactlyForIllegalOpcodes : Prop :=
  ∀ s : State, s.status = .running →
    (formatOf (Memory.read s.mem s.pc.toNat) = none →
      step s = .next { s with
        status := .faulted
        fault := some ⟨.unsupportedInstruction, s.pc, Memory.read s.mem s.pc.toNat, .empty⟩ }) ∧
    (s.Inv → ∀ t r, step s = .next t → t.fault = some r → r.kind = .unsupportedInstruction →
      formatOf (Memory.read s.mem s.pc.toNat) = none)

/-- An operand byte past address 255 raises OutOfRange with the address 256, and changes nothing else
(R103; that nothing else changes is decision D14, log 14; the detail's shape is log 24). -/
def Obligations.OperandPastMemoryRaises : Prop :=
  ∀ (s : State) (f : Format), s.status = .running → formatOf (Memory.read s.mem s.pc.toNat) = some f →
    256 ≤ s.pc.toNat + f.operands →
    step s = .next { s with
      status := .faulted
      fault := some ⟨.outOfRange, s.pc, Memory.read s.mem s.pc.toNat, .address 256⟩ }

/-- HALT stops the machine and changes nothing else, at every address, 255 included (R108; that pc stays at
the HALT byte is decision D20, log 19). -/
def Obligations.HaltStopsAndChangesNothingElse : Prop :=
  ∀ s : State,
    exec .halt s = .next { s with status := .halted } ∧
    (s.status = .running → Memory.read s.mem s.pc.toNat = 0x01 → step s = .next { s with status := .halted })

/-- A running machine becomes Halted by HALT and by nothing else (R35, R109). -/
def Obligations.OnlyHaltHalts : Prop :=
  ∀ s t : State, s.status = .running → step s = .next t →
    (t.status = .halted ↔ Memory.read s.mem s.pc.toNat = 0x01)

/-- Once a run has ended no step changes any state (R101, R35; decision D30). That the model says so by a
step to the same state is its own choice (log 23). -/
def Obligations.EndedRunNeverChanges : Prop :=
  ∀ s t : State, s.ended → Reaches s t → t = s

/-- Every step of every state answers a next state: no instruction is refused, and every fault of the spec
is taken as R200 describes it (the model's reading, log 22). -/
def Obligations.EveryStepAnswersANextState : Prop :=
  ∀ s : State, ∃ t, step s = .next t

/-- The pc after an executed instruction other than HALT: one past the instruction's last byte where opcode bit
4 is 0 (R27, R106), never having wrapped (R29; decision D10, log 10). -/
def Obligations.PcAdvancesPastTheInstruction : Prop :=
  ∀ s t : State, s.status = .running → step s = .next t → t.status = .running →
    setsPc (Memory.read s.mem s.pc.toNat) = false →
    t.pc.toNat = s.pc.toNat + 1 + operandCount (Memory.read s.mem s.pc.toNat)

/-- Decoding depends on the pc and memory alone, takes the operand count from opcode bits 7:6, and checks no
register operand: with all its operand bytes in memory, an opcode of the table always decodes (R77, R104). -/
def Obligations.DecodingReadsOnlyPcAndMemory : Prop :=
  (∀ s s' : State, s'.pc = s.pc → s'.mem = s.mem → decodeAt s' = decodeAt s) ∧
  ∀ s : State, (formatOf (Memory.read s.mem s.pc.toNat)).isSome = true →
    s.pc.toNat + operandCount (Memory.read s.mem s.pc.toNat) < 256 → ∃ i, decodeAt s = .ok i

/-! ## Reset, loading and invariants (70_reset_and_hazards.md) -/

/-- The state after reset with no image (R230). The zeros of R0 to R6, of the flags and of memory, and the
values of SP and pc, are the spec's decisions D3 to D7 (logs 3 to 7). -/
def Obligations.ResetState : Prop :=
  (∀ r : RegIndex, State.reset.reg r = if r = 7 then 0xF4 else 0) ∧
  State.reset.pc = 0 ∧ State.reset.flags = ⟨false, false, false⟩ ∧
  (∀ a, Memory.read State.reset.mem a = 0) ∧
  State.reset.status = .running ∧ State.reset.fault = none ∧ State.reset.out = []

/-- A run starts with the image's bytes from address 0, zeros above them, and every other piece of state at
reset; an image of more than 256 bytes or with a literal above 255 starts no run (R51, R230, R232; the
zeros are decision D7, log 7; the rejections decision D25, log 8). -/
def Obligations.LoadedImageIsInMemory : Prop :=
  ∀ image : List Nat,
    ((∃ s, loadImage image = some s) ↔ image.length ≤ 256 ∧ ∀ v ∈ image, v < 256) ∧
    ∀ s, loadImage image = some s →
      (∀ k, k < 256 → (Memory.read s.mem k).toNat = image[k]?.getD 0) ∧
      s = { State.reset with mem := s.mem }

/-- The invariant holds at reset. -/
def Obligations.ResetKeepsTheInvariant : Prop := State.reset.Inv

/-- Every step keeps the invariant: memory in its canonical form, at most one condition flag set, a fault
record exactly when Faulted, naming the address pc still holds, and one of those the spec's tables have
(R31, R35, R50, R200 to R203; the shapes of the details are log 24). -/
def Obligations.EveryStepKeepsTheInvariant : Prop :=
  ∀ s t : State, s.Inv → step s = .next t → t.Inv

/-- Every state of every run of every image has the invariant. -/
def Obligations.EveryReachableStateHasTheInvariant : Prop :=
  ∀ s : State, Reachable s → s.Inv

/-! ## Faults (60_exceptions.md) -/

/-- A fault names the faulting instruction: its record has the address and the raw byte of the opcode fetched,
and pc keeps that address (R200, R206). -/
def Obligations.FaultNamesTheInstruction : Prop :=
  ∀ s t : State, s.status = .running → step s = .next t → t.status = .faulted →
    t.pc = s.pc ∧ ∃ r, t.fault = some r ∧ r.pc = s.pc ∧ r.opcode = Memory.read s.mem s.pc.toNat

/-- What a fault leaves. ADVANCE's, the one in which the pc would have reached 256, leaves what EXECUTE did;
every other leaves everything but status and fault as it was (R205, R206; the first is decision D10,
log 10, the second D14, log 14). -/
def Obligations.FaultLeavesTheRestOfTheState : Prop :=
  ∀ s t : State, s.status = .running → step s = .next t → t.status = .faulted →
    (∀ u, AdvancesPastMemory s u → t = { u with status := .faulted, fault := t.fault }) ∧
    ((∀ u, ¬ AdvancesPastMemory s u) → t = { s with status := .faulted, fault := t.fault })

/-- ArithmeticError is raised by MODULO when its divisor register holds 0, with the detail "modulo by zero",
and by nothing else (R203). -/
def Obligations.ArithmeticErrorExactlyForModuloByZero : Prop :=
  ∀ s t : State, s.Inv → s.status = .running → step s = .next t →
    ((∃ r, t.fault = some r ∧ r.kind = .arithmeticError) ↔
      ∃ ra rb, decodeAt s = .ok (.modulo (regByte ra) (regByte rb)) ∧ s.reg rb = 0) ∧
    ∀ r, t.fault = some r → r.kind = .arithmeticError → r.detail = .moduloByZero

/-- An operand that names no register raises OutOfRange with the index, A before B, whatever the instruction, and
changes nothing else (R111, R205; that nothing else changes is decision D14, log 14; that a
conditional jump checks it when not taken is D31, log 26; the detail's shape is log 24). -/
def Obligations.IllegalRegisterOperandRaises : Prop :=
  ∀ (i : Instr) (s : State) (b : Byte), i.regOperands.find? (fun c => !legalReg c) = some b →
    ∃ op rest, encode i = op :: rest ∧
      exec i s = .next { s with
        status := .faulted
        fault := some ⟨.outOfRange, s.pc, op, .registerIndex b⟩ }

/-! ## Whole-machine rules about each kind of state -/

/-- Only COMPARE writes the flags, and it leaves exactly one set whatever they were before; no other
instruction writes any flag (R31). -/
def Obligations.OnlyCompareWritesFlags : Prop :=
  (∀ s t : State, s.status = .running → step s = .next t →
    Memory.read s.mem s.pc.toNat ≠ 0xA7 → t.flags = s.flags) ∧
  (∀ (i : Instr) (s t : State), exec i s = .next t → (∀ a b, i ≠ .compare a b) → t.flags = s.flags) ∧
  ∀ (ra rb : RegIndex) (s : State), ∃ f : Flags, f.exactlyOne = true ∧
    ∀ old : Flags, exec (.compare (regByte ra) (regByte rb)) (s.setFlags old) = .next (s.setFlags f)

/-- No instruction reads FL.L or FL.G, and only the two conditional jumps read FL.E: starting from other flags
that an instruction does not read changes nothing in the step's outcome but the flags, which a COMPARE of
two registers leaves the same from either start and everything else leaves as it found them (R32). -/
def Obligations.FlagsAreReadOnlyByConditionalJumps : Prop :=
  ∀ (s t t' : State) (f : Flags), s.status = .running →
    (f.equal = s.flags.equal ∨ Memory.read s.mem s.pc.toNat ∉ ([0x55, 0x56] : List Byte)) →
    step s = .next t → step (s.setFlags f) = .next t' →
    t' = t.setFlags t'.flags ∧
    ((∃ ra rb, decodeAt s = .ok (.compare (regByte ra) (regByte rb))) → t'.flags = t.flags) ∧
    ((¬ ∃ ra rb, decodeAt s = .ok (.compare (regByte ra) (regByte rb))) → t'.flags = f)

/-- The output stream only grows, by PRINT and by nothing else, and PRINT appends its register's value (R36). -/
def Obligations.OnlyPrintWritesOutput : Prop :=
  ∀ s t : State, step s = .next t →
    t.out = s.out ∨
    ∃ r : RegIndex, decodeAt s = .ok (.print (regByte r)) ∧ t.out = s.out ++ [s.reg r]

/-- No instruction reads the output stream: a step from any other stream does the same and appends the same (R36). -/
def Obligations.OutputIsNeverRead : Prop :=
  ∀ (s t : State) (o : List Word), step s = .next t →
    ∃ added, t.out = s.out ++ added ∧ step { s with out := o } = .next { t with out := o ++ added }

/-- Only PUSH and CALL write memory, and only the one cell below SP (R54, R65; conflict C1). -/
def Obligations.OnlyPushAndCallWriteMemory : Prop :=
  ∀ s t : State, s.status = .running → step s = .next t →
    (Memory.read s.mem s.pc.toNat ∉ ([0x45, 0x50] : List Byte) → t.mem = s.mem) ∧
    ∀ a, a ≠ (s.reg 7 - 1).toNat → Memory.read t.mem a = Memory.read s.mem a

/-! ## Memory and registers (10_state.md, 20_memory.md) -/

/-- MemRead hands on `mem[a]` and nothing else for an address of memory; otherwise it raises OutOfRange with
the address, and nothing that was to follow happens (R52). -/
def Obligations.MemReadRule : Prop :=
  ∀ (op : Byte) (a : Nat) (s : State) (k : Byte → Result),
    (a < 256 → memRead op a s k = k (Memory.read s.mem a)) ∧
    (256 ≤ a → memRead op a s k = .next { s with
      status := .faulted
      fault := some ⟨.outOfRange, s.pc, op, .address a⟩ })

/-- MemWrite changes the one cell for an address of memory and keeps the canonical form; otherwise it raises
OutOfRange with the address and writes nothing (R53). -/
def Obligations.MemWriteRule : Prop :=
  ∀ (op : Byte) (a : Nat) (v : Byte) (s : State) (k : State → Result), Memory.wf s.mem = true →
    (a < 256 → ∃ m, memWrite op a v s k = k { s with mem := m } ∧ Memory.wf m = true ∧
      Memory.read m a = v ∧ ∀ c, c ≠ a → Memory.read m c = Memory.read s.mem c) ∧
    (256 ≤ a → memWrite op a v s k = .next { s with
      status := .faulted
      fault := some ⟨.outOfRange, s.pc, op, .address a⟩ })

/-- A register holds what was last written to it, modulo 256, and a write leaves every other register alone; no
register is hard-wired (R23, R24; the width is decision D1, log 1). -/
def Obligations.RegisterHoldsLastWrite : Prop :=
  ∀ (s : State) (i j : RegIndex) (v : Nat),
    ((s.storeReg i v).reg i).toNat = v % 256 ∧ (i ≠ j → (s.storeReg i v).reg j = s.reg j)

/-! ## The instructions' results (files 41 to 44): each completes, for every legal operand -/

/-- LDI loads its immediate and nothing else (R120). -/
def Obligations.LdiLoadsTheImmediate : Prop :=
  ∀ (r : RegIndex) (imm : Byte) (s : State),
    exec (.ldi (regByte r) imm) s = .next { s with regs := s.regs.set r imm }

/-- PRINT appends its register's value to the output and changes nothing else (R121). -/
def Obligations.PrintEmitsTheRegister : Prop :=
  ∀ (r : RegIndex) (s : State),
    exec (.print (regByte r)) s = .next { s with out := s.out ++ [s.reg r] }

/-- PUSH stores the register's old value at SP - 1 and decrements SP; at SP = 0 it raises and writes nothing
(R130, R65; the raise is decision D12, log 12; PUSH R7 storing the old SP is D18, log 17). -/
def Obligations.PushStoresBelowSp : Prop :=
  ∀ (r : RegIndex) (s : State),
    (s.reg 7 ≠ 0 → exec (.push (regByte r)) s = .next { s with
      regs := s.regs.set 7 (s.reg 7 - 1)
      mem := Memory.write s.mem (s.reg 7 - 1).toNat (s.reg r) }) ∧
    (s.reg 7 = 0 → exec (.push (regByte r)) s = .next { s with
      status := .faulted
      fault := some ⟨.outOfRange, s.pc, 0x45, .stackOverflow (-1)⟩ })

/-- POP loads the byte at SP and increments SP, the destination last; at SP >= 0xF4 it raises and writes nothing
(R131, R65; the raise is decision D13, log 13; the order of the writes is D18, log 17). -/
def Obligations.PopLoadsFromSp : Prop :=
  ∀ (r : RegIndex) (s : State),
    ((s.reg 7).toNat < 0xF4 → exec (.pop (regByte r)) s = .next { s with
      regs := (s.regs.set 7 (s.reg 7 + 1)).set r (Memory.read s.mem (s.reg 7).toNat) }) ∧
    (0xF4 ≤ (s.reg 7).toNat → exec (.pop (regByte r)) s = .next { s with
      status := .faulted
      fault := some ⟨.outOfRange, s.pc, 0x46, .stackUnderflow (s.reg 7)⟩ })

/-- CALL pushes the address after it and jumps to its register's old value; at pc 254 or 255 its return address
would be 256 or more and it raises, then at SP = 0 too, writing nothing (R140; decisions D11, D12, D18,
logs 11, 12, 17). -/
def Obligations.CallPushesReturnAddressAndJumps : Prop :=
  ∀ (r : RegIndex) (s : State),
    (s.pc.toNat + 2 < 256 → s.reg 7 ≠ 0 → exec (.call (regByte r)) s = .next { s with
      regs := s.regs.set 7 (s.reg 7 - 1)
      mem := Memory.write s.mem (s.reg 7 - 1).toNat (s.pc + 2)
      pc := s.reg r }) ∧
    (256 ≤ s.pc.toNat + 2 → exec (.call (regByte r)) s = .next { s with
      status := .faulted
      fault := some ⟨.outOfRange, s.pc, 0x50, .returnAddress (s.pc.toNat + 2)⟩ }) ∧
    (s.pc.toNat + 2 < 256 → s.reg 7 = 0 → exec (.call (regByte r)) s = .next { s with
      status := .faulted
      fault := some ⟨.outOfRange, s.pc, 0x50, .stackOverflow (-1)⟩ })

/-- RETURN pops the pc; at SP >= 0xF4 it raises and writes nothing (R141; decision D13, log 13). -/
def Obligations.ReturnPopsThePc : Prop :=
  ∀ s : State,
    ((s.reg 7).toNat < 0xF4 → exec .ret s = .next { s with
      regs := s.regs.set 7 (s.reg 7 + 1)
      pc := Memory.read s.mem (s.reg 7).toNat }) ∧
    (0xF4 ≤ (s.reg 7).toNat → exec .ret s = .next { s with
      status := .faulted
      fault := some ⟨.outOfRange, s.pc, 0x11, .stackUnderflow (s.reg 7)⟩ })

/-- JUMP sets pc to its register and changes nothing else, whatever the flags; its operand is the byte after the
opcode; an index of 8 or more, or an operand byte past 255, raises OutOfRange with pc unchanged (R142). -/
def Obligations.JumpSetsPcToTheRegister : Prop :=
  (∀ (r : RegIndex) (s : State), exec (.jump (regByte r)) s = .next { s with pc := s.reg r }) ∧
  ∀ s : State, s.status = .running → Memory.read s.mem s.pc.toNat = 0x54 →
    (∀ r : RegIndex, s.pc.toNat < 255 → Memory.read s.mem (s.pc.toNat + 1) = regByte r →
      step s = .next { s with pc := s.reg r }) ∧
    (s.pc.toNat = 255 ∨ 8 ≤ (Memory.read s.mem (s.pc.toNat + 1)).toNat →
      ∃ t r, step s = .next t ∧ t.status = .faulted ∧ t.pc = s.pc ∧ t.fault = some r ∧ r.kind = .outOfRange)

/-- JUMP-IF-EQUAL jumps where FL.E is 1; otherwise it moves past its two bytes once, or raises at pc 254 and
255 (R143; the single fall-through is decision D19, log 18; the raise D10, log 10). -/
def Obligations.JumpIfEqualJumpsOnEqual : Prop :=
  ∀ (r : RegIndex) (s : State),
    (s.flags.equal = true → exec (.jumpIfEqual (regByte r)) s = .next { s with pc := s.reg r }) ∧
    (s.flags.equal = false → s.pc.toNat + 2 < 256 →
      exec (.jumpIfEqual (regByte r)) s = .next { s with pc := s.pc + 2 }) ∧
    (s.flags.equal = false → 256 ≤ s.pc.toNat + 2 →
      exec (.jumpIfEqual (regByte r)) s = .next { s with
        status := .faulted
        fault := some ⟨.outOfRange, s.pc, 0x55, .nextAddress (s.pc.toNat + 2)⟩ })

/-- JUMP-IF-NOT-EQUAL jumps where FL.E is 0; otherwise it moves past its two bytes once, or raises at pc 254
and 255 (R144; decisions D10 and D19, logs 10 and 18). -/
def Obligations.JumpIfNotEqualJumpsOnNotEqual : Prop :=
  ∀ (r : RegIndex) (s : State),
    (s.flags.equal = false → exec (.jumpIfNotEqual (regByte r)) s = .next { s with pc := s.reg r }) ∧
    (s.flags.equal = true → s.pc.toNat + 2 < 256 →
      exec (.jumpIfNotEqual (regByte r)) s = .next { s with pc := s.pc + 2 }) ∧
    (s.flags.equal = true → 256 ≤ s.pc.toNat + 2 →
      exec (.jumpIfNotEqual (regByte r)) s = .next { s with
        status := .faulted
        fault := some ⟨.outOfRange, s.pc, 0x56, .nextAddress (s.pc.toNat + 2)⟩ })

/-- ADD and MULTIPLY write the sum and the product modulo 256 to A and nothing else: no carry or overflow is
recorded or raised (R161, R162, R171; the modulus is decision D1, log 1). -/
def Obligations.AddAndMultiplyWrap : Prop :=
  ∀ (ra rb : RegIndex) (s : State),
    exec (.add (regByte ra) (regByte rb)) s = .next { s with
      regs := s.regs.set ra (BitVec.ofNat 8 (((s.reg ra).toNat + (s.reg rb).toNat) % 256)) } ∧
    exec (.multiply (regByte ra) (regByte rb)) s = .next { s with
      regs := s.regs.set ra (BitVec.ofNat 8 (((s.reg ra).toNat * (s.reg rb).toNat) % 256)) }

/-- MODULO writes the unsigned remainder to A where the divisor is not 0, and raises ArithmeticError, with A
unchanged, where it is (R163; unsigned is decision D17, log 16). -/
def Obligations.ModuloWritesTheRemainder : Prop :=
  ∀ (ra rb : RegIndex) (s : State),
    (s.reg rb ≠ 0 → exec (.modulo (regByte ra) (regByte rb)) s = .next { s with
      regs := s.regs.set ra (BitVec.ofNat 8 ((s.reg ra).toNat % (s.reg rb).toNat)) }) ∧
    (s.reg rb = 0 → exec (.modulo (regByte ra) (regByte rb)) s = .next { s with
      status := .faulted
      fault := some ⟨.arithmeticError, s.pc, 0xA4, .moduloByZero⟩ })

/-- COMPARE sets L, G or E as A is below, above or equal to B, unsigned, and changes nothing else (R164;
unsigned is decision D16, log 16). -/
def Obligations.CompareSetsTheOrder : Prop :=
  ∀ (ra rb : RegIndex) (s : State),
    exec (.compare (regByte ra) (regByte rb)) s = .next { s with
      flags := ⟨decide ((s.reg ra).toNat < (s.reg rb).toNat), decide ((s.reg rb).toNat < (s.reg ra).toNat),
        decide (s.reg ra = s.reg rb)⟩ }

/-- AND, OR, XOR and NOT write their bitwise result to A and change nothing else (R165 to R168; that NOT has
one operand is decision D32, log 27). -/
def Obligations.BitwiseOperationsWriteTheirResult : Prop :=
  ∀ (ra rb : RegIndex) (s : State),
    exec (.and (regByte ra) (regByte rb)) s = .next { s with regs := s.regs.set ra (s.reg ra &&& s.reg rb) } ∧
    exec (.or (regByte ra) (regByte rb)) s = .next { s with regs := s.regs.set ra (s.reg ra ||| s.reg rb) } ∧
    exec (.xor (regByte ra) (regByte rb)) s = .next { s with regs := s.regs.set ra (s.reg ra ^^^ s.reg rb) } ∧
    exec (.not (regByte ra)) s = .next { s with regs := s.regs.set ra (~~~ s.reg ra) }

/-- SHIFT-LEFT and SHIFT-RIGHT shift A by the whole value of B with zeros filled in, so by 8 or more they leave
0, and change nothing else (R169, R170; decision D15, log 15). -/
def Obligations.ShiftsUseTheWholeAmount : Prop :=
  ∀ (ra rb : RegIndex) (s : State), ∃ l r : Word,
    exec (.shiftLeft (regByte ra) (regByte rb)) s = .next { s with regs := s.regs.set ra l } ∧
    exec (.shiftRight (regByte ra) (regByte rb)) s = .next { s with regs := s.regs.set ra r } ∧
    l.toNat = ((s.reg ra).toNat * 2 ^ (s.reg rb).toNat) % 256 ∧
    r.toNat = (s.reg ra).toNat / 2 ^ (s.reg rb).toNat ∧
    (8 ≤ (s.reg rb).toNat → l = 0 ∧ r = 0)

/-! ## Frames: what an instruction leaves unchanged when it answers a next state -/

/-- The instructions that write a register A and nothing else: every other register, the flags, the pc, every
byte of memory and the output stay; A stays too where the instruction raised; status and fault change
only together, by a fault (R24, R120, R160; that a raise leaves A is decision D14, log 14). -/
def Obligations.RegisterWritersFrame : Prop :=
  ∀ (i : Instr) (a b : Byte) (s t : State),
    i ∈ [.ldi a b, .add a b, .multiply a b, .modulo a b, .and a b, .or a b, .xor a b, .not a,
      .shiftLeft a b, .shiftRight a b] →
    exec i s = .next t →
    (∀ r : RegIndex, regByte r ≠ a → t.reg r = s.reg r) ∧ t.flags = s.flags ∧ t.pc = s.pc ∧
    (∀ c, Memory.read t.mem c = Memory.read s.mem c) ∧ t.out = s.out ∧
    ((t.status = s.status ∧ t.fault = s.fault) ∨ (t.status = .faulted ∧ ∀ r, t.reg r = s.reg r))

/-- The instructions that write no register: every register and every byte of memory stays; the flags stay but for
COMPARE, the output but for PRINT, the pc but for the three jumps; status and fault change only together,
by a fault or by HALT (R24, R31, R36, R54; that a raise leaves flags, output and pc is decision D14,
log 14). -/
def Obligations.NonWritersFrame : Prop :=
  ∀ (i : Instr) (a b : Byte) (s t : State),
    i ∈ [.halt, .print a, .compare a b, .jump a, .jumpIfEqual a, .jumpIfNotEqual a] →
    exec i s = .next t →
    (∀ r : RegIndex, t.reg r = s.reg r) ∧ (∀ c, Memory.read t.mem c = Memory.read s.mem c) ∧
    (i ≠ .compare a b → t.flags = s.flags) ∧ (i ≠ .print a → t.out = s.out) ∧
    (i ∈ [.halt, .print a, .compare a b] → t.pc = s.pc) ∧
    ((t.status = s.status ∧ t.fault = s.fault) ∨ (i = .halt ∧ t.status = .halted ∧ t.fault = s.fault) ∨
      (t.status = .faulted ∧ t.flags = s.flags ∧ t.out = s.out ∧ t.pc = s.pc))

/-- PUSH and CALL write SP and the one byte at the decremented SP, and CALL the pc: every other register, the
flags, the output and every other byte stay (R24, R54, R65); where the instruction raised, SP, the pc and
every byte stay too (decision D14, log 14). -/
def Obligations.PushAndCallFrame : Prop :=
  ∀ (i : Instr) (a : Byte) (s t : State), i ∈ [.push a, .call a] → exec i s = .next t →
    (∀ r : RegIndex, r ≠ 7 → t.reg r = s.reg r) ∧ t.flags = s.flags ∧ t.out = s.out ∧
    (i = .push a → t.pc = s.pc) ∧
    (∀ c, c ≠ (s.storeReg 7 (s.sp.toNat - 1)).sp.toNat → Memory.read t.mem c = Memory.read s.mem c) ∧
    ((t.status = s.status ∧ t.fault = s.fault) ∨
      (t.status = .faulted ∧ t.reg 7 = s.reg 7 ∧ t.pc = s.pc ∧ t.mem = s.mem))

/-- POP writes its register and SP, RETURN SP and the pc: every other register, the flags, the output and every byte
of memory stay; the popped cell is not cleared (R24, R131, R141); where the instruction raised, every register
and the pc stay too (decision D14, log 14). -/
def Obligations.PopAndReturnFrame : Prop :=
  ∀ (i : Instr) (a : Byte) (s t : State), i ∈ [.pop a, .ret] → exec i s = .next t →
    (∀ r : RegIndex, r ≠ 7 → (i = .pop a → regByte r ≠ a) → t.reg r = s.reg r) ∧
    t.flags = s.flags ∧ t.out = s.out ∧ (i = .pop a → t.pc = s.pc) ∧
    (∀ c, Memory.read t.mem c = Memory.read s.mem c) ∧
    ((t.status = s.status ∧ t.fault = s.fault) ∨
      (t.status = .faulted ∧ (∀ r, t.reg r = s.reg r) ∧ t.pc = s.pc))

/-! ## The stack over several instructions (42_stack.md R132, 43_control.md R141) -/

/-- A subroutine that returns at once: CALL then RETURN comes back to the instruction after the CALL with every
register as it was (R140, R141; SP below or at its reset value, decision D13, log 13). -/
def Obligations.ReturnComesBackAfterCall : Prop :=
  ∀ (a : Byte) (s t u : State), Memory.wf s.mem = true → s.status = .running →
    (s.reg 7).toNat ≤ 0xF4 → exec (.call a) s = .next t → t.status = .running →
    exec .ret t = .next u →
    u.status = .running ∧ u.pc.toNat = s.pc.toNat + 2 ∧ ∀ r, u.reg r = s.reg r

/-- The stack is last-in first-out. Around any balanced sequence of PUSH and POP in which no POP names R7, if no
fault occurs, PUSH a … POP b leaves in b what a held before the PUSH, and SP where it started unless b
is R7 (R132; it rests on decision D18, log 17). -/
def Obligations.StackIsLastInFirstOut : Prop :=
  ∀ (mid : List Instr) (ra rb : RegIndex) (s t : State), Balanced mid → s.status = .running →
    Memory.wf s.mem = true →
    execAll (.push (regByte ra) :: mid ++ [.pop (regByte rb)]) s = .next t → t.status = .running →
    t.reg rb = s.reg ra ∧ (rb ≠ 7 → t.reg 7 = s.reg 7)

/-- A store is seen by the next fetch of its cell: after a PUSH, or a CALL, that stored, an instruction fetched
from that memory at any pc has the stored byte wherever its opcode or an operand byte lies in that cell;
where the opcode lies there and the byte is HALT's, the machine halts (R63, R235; decision D24, log 29;
the stored byte is the old value of the register, decision D18, log 17). -/
def Obligations.PushedCodeIsFetched : Prop :=
  ∀ (s t : State) (r : RegIndex) (b : Byte), Memory.wf s.mem = true → s.status = .running →
    (decodeAt s = .ok (.push (regByte r)) ∧ b = s.reg r ∨
      decodeAt s = .ok (.call (regByte r)) ∧ b = s.pc + 2) →
    s.reg 7 ≠ 0 → s.pc.toNat + 2 < 256 → step s = .next t →
    t.status = .running ∧
    ∀ (u : State) (k : Nat), u.mem = t.mem → k ≤ 2 → u.pc.toNat + k = (s.reg 7 - 1).toNat →
      (instructionBytes u)[k]? = some b ∧
      (k = 0 → b = 0x01 → u.status = .running → step u = .next { u with status := .halted })
end

