-- ==== Sys2Proof/Laws/Decode.lean ====
section
/-! SUPPORT. The small lemmas of the decoder: what `formatOf` answers for each opcode of the table, what
`decode` does once a format is known, and that the decoder's formats agree with the opcode's bits. -/

namespace Sys2Proof

/-! ## One lookup for each row (R75) -/

theorem formatOf_halt : formatOf Opcode.halt = some (.z .halt) := rfl
theorem formatOf_ldi : formatOf Opcode.ldi = some (.ri .ldi) := rfl
theorem formatOf_print : formatOf Opcode.print = some (.r .print) := rfl
theorem formatOf_push : formatOf Opcode.push = some (.r .push) := rfl
theorem formatOf_pop : formatOf Opcode.pop = some (.r .pop) := rfl
theorem formatOf_call : formatOf Opcode.call = some (.r .call) := rfl
theorem formatOf_ret : formatOf Opcode.ret = some (.z .ret) := rfl
theorem formatOf_compare : formatOf Opcode.compare = some (.rr .compare) := rfl
theorem formatOf_jump : formatOf Opcode.jump = some (.r .jump) := rfl
theorem formatOf_jumpIfEqual : formatOf Opcode.jumpIfEqual = some (.r .jumpIfEqual) := rfl
theorem formatOf_jumpIfNotEqual : formatOf Opcode.jumpIfNotEqual = some (.r .jumpIfNotEqual) := rfl
theorem formatOf_add : formatOf Opcode.add = some (.rr .add) := rfl
theorem formatOf_multiply : formatOf Opcode.multiply = some (.rr .multiply) := rfl
theorem formatOf_and : formatOf Opcode.and = some (.rr .and) := rfl
theorem formatOf_or : formatOf Opcode.or = some (.rr .or) := rfl
theorem formatOf_xor : formatOf Opcode.xor = some (.rr .xor) := rfl
theorem formatOf_not : formatOf Opcode.not = some (.r .not) := rfl
theorem formatOf_shiftLeft : formatOf Opcode.shiftLeft = some (.rr .shiftLeft) := rfl
theorem formatOf_shiftRight : formatOf Opcode.shiftRight = some (.rr .shiftRight) := rfl
theorem formatOf_modulo : formatOf Opcode.modulo = some (.rr .modulo) := rfl

/-! ## `decode` once the format is known (R103) -/

theorem decode_unsupported {op : Byte} (h : formatOf op = none) (rest : List Byte) :
    decode (op :: rest) = .error (.unsupported op) := by simp [decode, h]

theorem decode_z {op : Byte} {i : Instr} (h : formatOf op = some (.z i)) (rest : List Byte) :
    decode (op :: rest) = .ok (i, rest) := by simp [decode, h]

theorem decode_r {op : Byte} {mk : Byte → Instr} (h : formatOf op = some (.r mk)) (a : Byte) (rest : List Byte) :
    decode (op :: a :: rest) = .ok (mk a, rest) := by simp [decode, h]

theorem decode_rr {op : Byte} {mk : Byte → Byte → Instr} (h : formatOf op = some (.rr mk)) (a b : Byte)
    (rest : List Byte) : decode (op :: a :: b :: rest) = .ok (mk a b, rest) := by simp [decode, h]

theorem decode_ri {op : Byte} {mk : Byte → Byte → Instr} (h : formatOf op = some (.ri mk)) (a b : Byte)
    (rest : List Byte) : decode (op :: a :: b :: rest) = .ok (mk a b, rest) := by simp [decode, h]

/-- Too few operand bytes: the first missing one is named (R103). -/
theorem decode_short {op : Byte} {f : Format} (h : formatOf op = some f) {rest : List Byte}
    (hl : rest.length < f.operands) : decode (op :: rest) = .error (.missingByte (rest.length + 1)) := by
  cases f with
  | z i => simp [Format.operands] at hl
  | r mk =>
    cases rest with
    | nil => simp [decode, h]
    | cons a rest => simp [Format.operands] at hl
  | rr mk =>
    cases rest with
    | nil => simp [decode, h]
    | cons a rest =>
      cases rest with
      | nil => simp [decode, h]
      | cons b rest => simp [Format.operands] at hl
  | ri mk =>
    cases rest with
    | nil => simp [decode, h]
    | cons a rest =>
      cases rest with
      | nil => simp [decode, h]
      | cons b rest => simp [Format.operands] at hl

/-! ## Rows -/

theorem lookupOpcode_mem {op : Byte} {f : Format} {rows : List (Byte × Format)}
    (h : lookupOpcode op rows = some f) : (op, f) ∈ rows := by
  induction rows with
  | nil => cases h
  | cons e rows ih =>
    obtain ⟨o, g⟩ := e
    simp only [lookupOpcode] at h
    split at h
    · next ho => cases h; simp [ho]
    · exact List.mem_cons_of_mem _ (ih h)

/-- A format belongs to a row of the table. -/
theorem formatOf_mem {op : Byte} {f : Format} (h : formatOf op = some f) : (op, f) ∈ opcodeTable :=
  lookupOpcode_mem h

/-- The opcode bytes of the table, each once. -/
theorem opcodeTable_nodup : (opcodeTable.map Prod.fst).Nodup := by decide

/-- In every row the operand count of bits 7:6 is the format's (R71, R76), bit 5 marks the ALU
operations (R72) and bit 4 the five control transfers (R73). -/
theorem opcodeTable_operandCount : ∀ row ∈ opcodeTable, operandCount row.1 = row.2.operands := by decide

theorem operandCount_eq {op : Byte} {f : Format} (h : formatOf op = some f) :
    operandCount op = f.operands := opcodeTable_operandCount (op, f) (formatOf_mem h)

end Sys2Proof
end

