-- ==== Sys2Proof/Laws/State.lean ====
section
/-! SUPPORT. What each update of State does to each field, and register reads after updates. -/

namespace Sys2Proof.Machine

/-! ## setReg -/

@[simp] theorem State.setReg_regs (s : State) (i : RegIndex) (v : Word) :
    (s.setReg i v).regs = s.regs.set i v := rfl
@[simp] theorem State.setReg_pc (s : State) (i : RegIndex) (v : Word) :
    (s.setReg i v).pc = s.pc := rfl
@[simp] theorem State.setReg_flags (s : State) (i : RegIndex) (v : Word) :
    (s.setReg i v).flags = s.flags := rfl
@[simp] theorem State.setReg_mem (s : State) (i : RegIndex) (v : Word) :
    (s.setReg i v).mem = s.mem := rfl
@[simp] theorem State.setReg_status (s : State) (i : RegIndex) (v : Word) :
    (s.setReg i v).status = s.status := rfl
@[simp] theorem State.setReg_fault (s : State) (i : RegIndex) (v : Word) :
    (s.setReg i v).fault = s.fault := rfl
@[simp] theorem State.setReg_out (s : State) (i : RegIndex) (v : Word) :
    (s.setReg i v).out = s.out := rfl

/-! ## storeReg -/

@[simp] theorem State.storeReg_regs (s : State) (i : RegIndex) (v : Nat) :
    (s.storeReg i v).regs = s.regs.set i (BitVec.ofNat 8 v) := rfl
@[simp] theorem State.storeReg_pc (s : State) (i : RegIndex) (v : Nat) :
    (s.storeReg i v).pc = s.pc := rfl
@[simp] theorem State.storeReg_flags (s : State) (i : RegIndex) (v : Nat) :
    (s.storeReg i v).flags = s.flags := rfl
@[simp] theorem State.storeReg_mem (s : State) (i : RegIndex) (v : Nat) :
    (s.storeReg i v).mem = s.mem := rfl
@[simp] theorem State.storeReg_status (s : State) (i : RegIndex) (v : Nat) :
    (s.storeReg i v).status = s.status := rfl
@[simp] theorem State.storeReg_fault (s : State) (i : RegIndex) (v : Nat) :
    (s.storeReg i v).fault = s.fault := rfl
@[simp] theorem State.storeReg_out (s : State) (i : RegIndex) (v : Nat) :
    (s.storeReg i v).out = s.out := rfl

/-! ## setPc -/

@[simp] theorem State.setPc_regs (s : State) (v : Byte) :
    (s.setPc v).regs = s.regs := rfl
@[simp] theorem State.setPc_pc (s : State) (v : Byte) :
    (s.setPc v).pc = v := rfl
@[simp] theorem State.setPc_flags (s : State) (v : Byte) :
    (s.setPc v).flags = s.flags := rfl
@[simp] theorem State.setPc_mem (s : State) (v : Byte) :
    (s.setPc v).mem = s.mem := rfl
@[simp] theorem State.setPc_status (s : State) (v : Byte) :
    (s.setPc v).status = s.status := rfl
@[simp] theorem State.setPc_fault (s : State) (v : Byte) :
    (s.setPc v).fault = s.fault := rfl
@[simp] theorem State.setPc_out (s : State) (v : Byte) :
    (s.setPc v).out = s.out := rfl
@[simp] theorem State.setPc_reg (s : State) (v : Byte) (j : RegIndex) :
    (s.setPc v).reg j = s.reg j := rfl

/-! ## setFlags -/

@[simp] theorem State.setFlags_regs (s : State) (v : Flags) :
    (s.setFlags v).regs = s.regs := rfl
@[simp] theorem State.setFlags_pc (s : State) (v : Flags) :
    (s.setFlags v).pc = s.pc := rfl
@[simp] theorem State.setFlags_flags (s : State) (v : Flags) :
    (s.setFlags v).flags = v := rfl
@[simp] theorem State.setFlags_mem (s : State) (v : Flags) :
    (s.setFlags v).mem = s.mem := rfl
@[simp] theorem State.setFlags_status (s : State) (v : Flags) :
    (s.setFlags v).status = s.status := rfl
@[simp] theorem State.setFlags_fault (s : State) (v : Flags) :
    (s.setFlags v).fault = s.fault := rfl
@[simp] theorem State.setFlags_out (s : State) (v : Flags) :
    (s.setFlags v).out = s.out := rfl
@[simp] theorem State.setFlags_reg (s : State) (v : Flags) (j : RegIndex) :
    (s.setFlags v).reg j = s.reg j := rfl

/-! ## setMem -/

@[simp] theorem State.setMem_regs (s : State) (v : Memory) :
    (s.setMem v).regs = s.regs := rfl
@[simp] theorem State.setMem_pc (s : State) (v : Memory) :
    (s.setMem v).pc = s.pc := rfl
@[simp] theorem State.setMem_flags (s : State) (v : Memory) :
    (s.setMem v).flags = s.flags := rfl
@[simp] theorem State.setMem_mem (s : State) (v : Memory) :
    (s.setMem v).mem = v := rfl
@[simp] theorem State.setMem_status (s : State) (v : Memory) :
    (s.setMem v).status = s.status := rfl
@[simp] theorem State.setMem_fault (s : State) (v : Memory) :
    (s.setMem v).fault = s.fault := rfl
@[simp] theorem State.setMem_out (s : State) (v : Memory) :
    (s.setMem v).out = s.out := rfl
@[simp] theorem State.setMem_reg (s : State) (v : Memory) (j : RegIndex) :
    (s.setMem v).reg j = s.reg j := rfl

/-! ## emit -/

@[simp] theorem State.emit_regs (s : State) (v : Word) :
    (s.emit v).regs = s.regs := rfl
@[simp] theorem State.emit_pc (s : State) (v : Word) :
    (s.emit v).pc = s.pc := rfl
@[simp] theorem State.emit_flags (s : State) (v : Word) :
    (s.emit v).flags = s.flags := rfl
@[simp] theorem State.emit_mem (s : State) (v : Word) :
    (s.emit v).mem = s.mem := rfl
@[simp] theorem State.emit_status (s : State) (v : Word) :
    (s.emit v).status = s.status := rfl
@[simp] theorem State.emit_fault (s : State) (v : Word) :
    (s.emit v).fault = s.fault := rfl
@[simp] theorem State.emit_out (s : State) (v : Word) :
    (s.emit v).out = s.out ++ [v] := rfl
@[simp] theorem State.emit_reg (s : State) (v : Word) (j : RegIndex) :
    (s.emit v).reg j = s.reg j := rfl

/-! ## halt -/

@[simp] theorem State.halt_regs (s : State) :
    (s.halt).regs = s.regs := rfl
@[simp] theorem State.halt_pc (s : State) :
    (s.halt).pc = s.pc := rfl
@[simp] theorem State.halt_flags (s : State) :
    (s.halt).flags = s.flags := rfl
@[simp] theorem State.halt_mem (s : State) :
    (s.halt).mem = s.mem := rfl
@[simp] theorem State.halt_status (s : State) :
    (s.halt).status = .halted := rfl
@[simp] theorem State.halt_fault (s : State) :
    (s.halt).fault = s.fault := rfl
@[simp] theorem State.halt_out (s : State) :
    (s.halt).out = s.out := rfl
@[simp] theorem State.halt_reg (s : State) (j : RegIndex) :
    (s.halt).reg j = s.reg j := rfl

/-! ## raised -/

@[simp] theorem State.raised_regs (s : State) (k : FaultKind) (op : Byte) (d : FaultDetail) :
    (s.raised k op d).regs = s.regs := rfl
@[simp] theorem State.raised_pc (s : State) (k : FaultKind) (op : Byte) (d : FaultDetail) :
    (s.raised k op d).pc = s.pc := rfl
@[simp] theorem State.raised_flags (s : State) (k : FaultKind) (op : Byte) (d : FaultDetail) :
    (s.raised k op d).flags = s.flags := rfl
@[simp] theorem State.raised_mem (s : State) (k : FaultKind) (op : Byte) (d : FaultDetail) :
    (s.raised k op d).mem = s.mem := rfl
@[simp] theorem State.raised_status (s : State) (k : FaultKind) (op : Byte) (d : FaultDetail) :
    (s.raised k op d).status = .faulted := rfl
@[simp] theorem State.raised_fault (s : State) (k : FaultKind) (op : Byte) (d : FaultDetail) :
    (s.raised k op d).fault = some ⟨k, s.pc, op, d⟩ := rfl
@[simp] theorem State.raised_out (s : State) (k : FaultKind) (op : Byte) (d : FaultDetail) :
    (s.raised k op d).out = s.out := rfl
@[simp] theorem State.raised_reg (s : State) (k : FaultKind) (op : Byte) (d : FaultDetail) (j : RegIndex) :
    (s.raised k op d).reg j = s.reg j := rfl

/-! ## Register reads (R23) -/

/-- A register reads the value last written to it, and a write leaves the other registers alone (R23). -/
theorem State.reg_setReg (s : State) (i : RegIndex) (v : Word) (j : RegIndex) :
    (s.setReg i v).reg j = if i = j then v else s.reg j := by
  simp [State.reg, State.setReg, Vector.getElem_set, Fin.ext_iff]

theorem State.reg_storeReg (s : State) (i : RegIndex) (v : Nat) (j : RegIndex) :
    (s.storeReg i v).reg j = if i = j then BitVec.ofNat 8 v else s.reg j :=
  s.reg_setReg i _ j

@[simp] theorem State.reg_setReg_self (s : State) (i : RegIndex) (v : Word) :
    (s.setReg i v).reg i = v := by simp [State.reg_setReg]

@[simp] theorem State.reg_storeReg_self (s : State) (i : RegIndex) (v : Nat) :
    (s.storeReg i v).reg i = BitVec.ofNat 8 v := by simp [State.reg_storeReg]

theorem State.reg_setReg_ne (s : State) {i j : RegIndex} (v : Word) (h : i ≠ j) :
    (s.setReg i v).reg j = s.reg j := by simp [State.reg_setReg, h]

/-- Two states with the same registers, read one by one, have the same register file. -/
theorem State.regs_ext {s t : State} (h : ∀ i, s.reg i = t.reg i) : s.regs = t.regs := by
  apply Vector.ext
  intro i hi
  exact h ⟨i, hi⟩

/-- Two states that agree in every piece of state are one state. -/
theorem State.ext_fields {s t : State} (regs : ∀ i, s.reg i = t.reg i) (pc : s.pc = t.pc)
    (flags : s.flags = t.flags) (mem : s.mem = t.mem) (status : s.status = t.status)
    (fault : s.fault = t.fault) (out : s.out = t.out) : s = t := by
  cases s; cases t
  have := State.regs_ext regs
  simp_all

end Sys2Proof.Machine
end

