-- ==== Sys2Proof/Laws/Ops.lean ====
section
/-! SUPPORT. What each shared operation can do: one lemma for each case, and one inversion lemma
("if it answers next t, then …") for later proofs to cite instead of unfolding the operation. -/

namespace Sys2Proof.Machine

theorem raise_eq (kind : FaultKind) (op : Byte) (d : FaultDetail) (s : State) :
    raise kind op d s = .next (s.raised kind op d) := rfl

/-! ## Register operands (R111) -/

theorem regByte_toNat (r : RegIndex) : (regByte r).toNat = r.val := by
  have h : r.val < 8 := r.isLt
  simp only [regByte, BitVec.toNat_ofNat]
  omega

theorem regByte_inj {r q : RegIndex} (h : regByte r = regByte q) : r = q :=
  Fin.ext (by rw [← regByte_toNat r, ← regByte_toNat q, h])

theorem eq_regByte_of_lt {b : Byte} (h : b.toNat < Config.numRegs) : b = regByte ⟨b.toNat, h⟩ := by
  apply BitVec.eq_of_toNat_eq
  rw [regByte_toNat]

@[simp] theorem legalReg_regByte (r : RegIndex) : legalReg (regByte r) = true := by
  simp [legalReg, regByte_toNat, r.isLt]

theorem withReg_regByte (op : Byte) (r : RegIndex) (s : State) (k : RegIndex → Result) :
    withReg op (regByte r) s k = k r := by
  have h : (regByte r).toNat < Config.numRegs := by rw [regByte_toNat]; exact r.isLt
  rw [withReg, dif_pos h]
  exact congrArg k (Fin.ext (regByte_toNat r))

theorem withReg_illegal (op : Byte) {b : Byte} (h : 8 ≤ b.toNat) (s : State) (k : RegIndex → Result) :
    withReg op b s k = .next (s.raised .outOfRange op (.registerIndex b)) := by
  rw [withReg, dif_neg (Nat.not_lt.mpr h), raise_eq]

/-- `reg(b)` raises, or hands on the register that `b` names. -/
theorem withReg_cases (op b : Byte) (s : State) (k : RegIndex → Result) :
    (8 ≤ b.toNat ∧ withReg op b s k = .next (s.raised .outOfRange op (.registerIndex b))) ∨
    ∃ r, b = regByte r ∧ withReg op b s k = k r := by
  by_cases h : b.toNat < Config.numRegs
  · exact .inr ⟨⟨_, h⟩, eq_regByte_of_lt h, by rw [withReg, dif_pos h]⟩
  · exact .inl ⟨Nat.not_lt.mp h, withReg_illegal op (Nat.not_lt.mp h) s k⟩

theorem withRegs_regByte (op : Byte) (r q : RegIndex) (s : State) (k : RegIndex → RegIndex → Result) :
    withRegs op (regByte r) (regByte q) s k = k r q := by
  rw [withRegs, withReg_regByte, withReg_regByte]

/-- Two register operands: A raises, or B raises, or both registers are handed on. -/
theorem withRegs_cases (op a b : Byte) (s : State) (k : RegIndex → RegIndex → Result) :
    (∃ c, (c = a ∨ c = b) ∧ 8 ≤ c.toNat ∧
      withRegs op a b s k = .next (s.raised .outOfRange op (.registerIndex c))) ∨
    ∃ r q, a = regByte r ∧ b = regByte q ∧ withRegs op a b s k = k r q := by
  rcases withReg_cases op a s (fun ra => withReg op b s fun rb => k ra rb) with ⟨ha, h⟩ | ⟨r, ha, h⟩
  · exact .inl ⟨a, .inl rfl, ha, h⟩
  · rcases withReg_cases op b s (fun rb => k r rb) with ⟨hb, h'⟩ | ⟨q, hb, h'⟩
    · exact .inl ⟨b, .inr rfl, hb, h.trans h'⟩
    · exact .inr ⟨r, q, ha, hb, h.trans h'⟩

/-! ## Memory access (R52, R53) -/

/-- A byte is always an address (R7), so an access at one never raises. -/
theorem memRead_byte (op a : Byte) (s : State) (k : Byte → Result) :
    memRead op a.toNat s k = k (Memory.read s.mem a.toNat) := by
  rw [memRead, if_pos a.isLt]

theorem memWrite_byte (op a v : Byte) (s : State) (k : State → Result) :
    memWrite op a.toNat v s k = k (s.setMem (Memory.write s.mem a.toNat v)) := by
  rw [memWrite, if_pos a.isLt]

/-! ## The stack (R65) -/

theorem ofNat_toNat_sub_one {v : Word} (h : v ≠ 0) : BitVec.ofNat 8 (v.toNat - 1) = v - 1 := by
  have hv : v.toNat ≠ 0 := fun h0 => h (BitVec.eq_of_toNat_eq h0)
  apply BitVec.eq_of_toNat_eq
  rw [BitVec.toNat_ofNat, BitVec.toNat_sub]
  have := v.isLt
  simp
  omega

theorem ofNat_toNat_add_one (v : Word) : BitVec.ofNat 8 (v.toNat + 1) = v + 1 := by
  apply BitVec.eq_of_toNat_eq
  rw [BitVec.toNat_ofNat, BitVec.toNat_add]
  simp

/-- Where a push stores: the decremented SP. -/
theorem push_address {s : State} (h : s.sp ≠ 0) :
    (s.storeReg Config.spIndex (s.sp.toNat - 1)).sp = s.sp - 1 := by
  rw [State.sp, State.reg_storeReg_self]
  exact ofNat_toNat_sub_one h

theorem pushByte_overflow (op v : Byte) {s : State} (h : s.sp = 0) (k : State → Result) :
    pushByte op v s k = .next (s.raised .outOfRange op (.stackOverflow (-1))) := by
  rw [pushByte, if_pos h, raise_eq]

theorem pushByte_stores (op v : Byte) {s : State} (h : s.sp ≠ 0) (k : State → Result) :
    pushByte op v s k =
      k ((s.setReg Config.spIndex (s.sp - 1)).setMem (Memory.write s.mem (s.sp - 1).toNat v)) := by
  rw [pushByte, if_neg h]
  simp only [memWrite_byte, push_address h, State.storeReg_mem]
  rw [State.storeReg, ofNat_toNat_sub_one h]

theorem popByte_underflow (op : Byte) {s : State} (h : 0xF4 ≤ s.sp.toNat) (k : Byte → State → Result) :
    popByte op s k = .next (s.raised .outOfRange op (.stackUnderflow s.sp)) := by
  rw [popByte, if_pos (show Config.spInit.toNat ≤ s.sp.toNat from h), raise_eq]

theorem popByte_loads (op : Byte) {s : State} (h : s.sp.toNat < 0xF4) (k : Byte → State → Result) :
    popByte op s k = k (Memory.read s.mem s.sp.toNat) (s.setReg Config.spIndex (s.sp + 1)) := by
  rw [popByte, if_neg (show ¬ Config.spInit.toNat ≤ s.sp.toNat from Nat.not_le.mpr h), memRead_byte,
    State.storeReg, ofNat_toNat_add_one]

/-! ## Moving the pc (R106) -/

theorem movePc_fits (op : Byte) {width : Nat} {s : State} (h : s.pc.toNat + width < 256) :
    movePc op width s = .next (s.setPc (BitVec.ofNat 8 (s.pc.toNat + width))) := by
  rw [movePc, if_neg (Nat.not_le.mpr h)]

theorem movePc_past (op : Byte) {width : Nat} {s : State} (h : 256 ≤ s.pc.toNat + width) :
    movePc op width s = .next (s.raised .outOfRange op (.nextAddress (s.pc.toNat + width))) := by
  rw [movePc, if_pos h, raise_eq]

/-! ## COMPARE's flags (R164) -/

theorem compareFlags_eq (x y : Word) :
    compareFlags x y = ⟨decide (x < y), decide (y < x), decide (x = y)⟩ := by
  simp only [compareFlags, Flags.clear, BitVec.lt_def]
  rcases Nat.lt_trichotomy x.toNat y.toNat with h | h | h
  · have hne : x ≠ y := fun e => by simp [e] at h
    simp [h, hne]
    omega
  · have he : x = y := BitVec.eq_of_toNat_eq h
    simp [he]
  · have hne : x ≠ y := fun e => by simp [e] at h
    have hnl : ¬ x.toNat < y.toNat := by omega
    simp [h, hne, hnl]

end Sys2Proof.Machine
end

