-- ==== Sys2Proof/Laws/Meanings.lean ====
section
/-! SUPPORT. What each shared operation of the meanings can do: inversion lemmas ("if it answers next t,
then it raised, or …"), and the ALU computations as operations on words. -/

namespace Sys2Proof.Machine

/-! ## The shared operations -/

/-- One register operand: it raised, or its continuation answered. -/
theorem withReg_next {op b : Byte} {s t : State} {k : RegIndex → Result} (h : withReg op b s k = .next t) :
    (8 ≤ b.toNat ∧ t = s.raised .outOfRange op (.registerIndex b)) ∨ ∃ r, b = regByte r ∧ k r = .next t := by
  rcases withReg_cases op b s k with ⟨hb, h'⟩ | ⟨r, hb, h'⟩
  · rw [h'] at h
    cases h
    exact .inl ⟨hb, rfl⟩
  · exact .inr ⟨r, hb, h' ▸ h⟩

/-- Two register operands: one of them raised, or the continuation answered. -/
theorem withRegs_next {op a b : Byte} {s t : State} {k : RegIndex → RegIndex → Result}
    (h : withRegs op a b s k = .next t) :
    (∃ c, (c = a ∨ c = b) ∧ 8 ≤ c.toNat ∧ t = s.raised .outOfRange op (.registerIndex c)) ∨
    ∃ r q, a = regByte r ∧ b = regByte q ∧ k r q = .next t := by
  rcases withRegs_cases op a b s k with ⟨c, hc, hl, h'⟩ | ⟨r, q, ha, hb, h'⟩
  · rw [h'] at h
    cases h
    exact .inl ⟨c, hc, hl, rfl⟩
  · exact .inr ⟨r, q, ha, hb, h' ▸ h⟩

/-- A push: it raised, or it stored at SP - 1 and its continuation answered. -/
theorem pushByte_next {op v : Byte} {s t : State} {k : State → Result} (h : pushByte op v s k = .next t) :
    (s.sp = 0 ∧ t = s.raised .outOfRange op (.stackOverflow (-1))) ∨ s.sp ≠ 0 ∧
      k ((s.setReg Config.spIndex (s.sp - 1)).setMem (Memory.write s.mem (s.sp - 1).toNat v)) = .next t := by
  by_cases hs : s.sp = 0
  · rw [pushByte_overflow op v hs] at h
    cases h
    exact .inl ⟨hs, rfl⟩
  · rw [pushByte_stores op v hs] at h
    exact .inr ⟨hs, h⟩

/-- A pop: it raised, or it read at SP and its continuation answered. -/
theorem popByte_next {op : Byte} {s t : State} {k : Byte → State → Result} (h : popByte op s k = .next t) :
    (0xF4 ≤ s.sp.toNat ∧ t = s.raised .outOfRange op (.stackUnderflow s.sp)) ∨ s.sp.toNat < 0xF4 ∧
      k (Memory.read s.mem s.sp.toNat) (s.setReg Config.spIndex (s.sp + 1)) = .next t := by
  by_cases hs : s.sp.toNat < 0xF4
  · rw [popByte_loads op hs] at h
    exact .inr ⟨hs, h⟩
  · rw [popByte_underflow op (Nat.not_lt.mp hs)] at h
    cases h
    exact .inl ⟨Nat.not_lt.mp hs, rfl⟩

/-- A move of the pc: it raised, or the pc moved by the width. -/
theorem movePc_next {op : Byte} {width : Nat} {s t : State} (h : movePc op width s = .next t) :
    (256 ≤ s.pc.toNat + width ∧ t = s.raised .outOfRange op (.nextAddress (s.pc.toNat + width))) ∨
    (s.pc.toNat + width < 256 ∧ t = s.setPc (BitVec.ofNat 8 (s.pc.toNat + width))) := by
  by_cases hs : s.pc.toNat + width < 256
  · rw [movePc_fits op hs] at h
    cases h
    exact .inr ⟨hs, rfl⟩
  · rw [movePc_past op (Nat.not_lt.mp hs)] at h
    cases h
    exact .inl ⟨Nat.not_lt.mp hs, rfl⟩

/-- A conditional jump: an operand or the fall-through raised, or it jumped, or it fell through. -/
theorem jumpIf_next {op a : Byte} {taken : Bool} {s t : State} (h : jumpIf op taken a s = .next t) :
    (8 ≤ a.toNat ∧ t = s.raised .outOfRange op (.registerIndex a)) ∨
    (taken = false ∧ 256 ≤ s.pc.toNat + 2 ∧ t = s.raised .outOfRange op (.nextAddress (s.pc.toNat + 2))) ∨
    ∃ r, a = regByte r ∧ (taken = true ∧ t = s.setPc (s.reg r) ∨
      taken = false ∧ s.pc.toNat + 2 < 256 ∧ t = s.setPc (BitVec.ofNat 8 (s.pc.toNat + 2))) := by
  rcases withReg_next h with h | ⟨r, ha, h⟩
  · exact .inl h
  · cases taken with
    | true => cases h; exact .inr (.inr ⟨r, ha, .inl ⟨rfl, rfl⟩⟩)
    | false =>
      rcases movePc_next h with ⟨hp, rfl⟩ | ⟨hf, rfl⟩
      · exact .inr (.inl ⟨rfl, hp, rfl⟩)
      · exact .inr (.inr ⟨r, ha, .inr ⟨rfl, hf, rfl⟩⟩)

/-- A two-operand ALU operation: an operand raised, or A was written. -/
theorem aluBinary_next {op a b : Byte} {f : Nat → Nat → Nat} {s t : State} (h : aluBinary op f a b s = .next t) :
    (∃ c, (c = a ∨ c = b) ∧ 8 ≤ c.toNat ∧ t = s.raised .outOfRange op (.registerIndex c)) ∨
    ∃ r q, a = regByte r ∧ b = regByte q ∧ t = s.storeReg r (f (s.reg r).toNat (s.reg q).toNat) := by
  rcases withRegs_next h with h | ⟨r, q, ha, hb, h⟩
  · exact .inl h
  · cases h; exact .inr ⟨r, q, ha, hb, rfl⟩

/-- A one-operand ALU operation: its operand raised, or A was written. -/
theorem aluUnary_next {op a : Byte} {f : Nat → Nat} {s t : State} (h : aluUnary op f a s = .next t) :
    (8 ≤ a.toNat ∧ t = s.raised .outOfRange op (.registerIndex a)) ∨
    ∃ r, a = regByte r ∧ t = s.storeReg r (f (s.reg r).toNat) := by
  rcases withReg_next h with h | ⟨r, ha, h⟩
  · exact .inl h
  · cases h; exact .inr ⟨r, ha, rfl⟩

/-! ## What the ALU computations are on words (R161 to R170) -/

theorem aluAdd_word (x y : Word) : BitVec.ofNat 8 (aluAdd x.toNat y.toNat) = x + y := by
  apply BitVec.eq_of_toNat_eq; simp [aluAdd]

theorem aluMultiply_word (x y : Word) : BitVec.ofNat 8 (aluMultiply x.toNat y.toNat) = x * y := by
  apply BitVec.eq_of_toNat_eq; simp [aluMultiply]

theorem aluModulo_word (x y : Word) : BitVec.ofNat 8 (aluModulo x.toNat y.toNat) = x % y := by
  apply BitVec.eq_of_toNat_eq
  have h := Nat.lt_of_le_of_lt (Nat.mod_le x.toNat y.toNat) x.isLt
  rw [BitVec.toNat_ofNat, BitVec.toNat_umod, aluModulo, Nat.mod_eq_of_lt h]

theorem aluAnd_word (x y : Word) : BitVec.ofNat 8 (aluAnd x.toNat y.toNat) = x &&& y := by
  apply BitVec.eq_of_toNat_eq
  rw [aluAnd, ← BitVec.toNat_and, BitVec.toNat_ofNat, Nat.mod_eq_of_lt (x &&& y).isLt]

theorem aluOr_word (x y : Word) : BitVec.ofNat 8 (aluOr x.toNat y.toNat) = x ||| y := by
  apply BitVec.eq_of_toNat_eq
  rw [aluOr, ← BitVec.toNat_or, BitVec.toNat_ofNat, Nat.mod_eq_of_lt (x ||| y).isLt]

theorem aluXor_word (x y : Word) : BitVec.ofNat 8 (aluXor x.toNat y.toNat) = x ^^^ y := by
  apply BitVec.eq_of_toNat_eq
  rw [aluXor, ← BitVec.toNat_xor, BitVec.toNat_ofNat, Nat.mod_eq_of_lt (x ^^^ y).isLt]

theorem aluNot_word (x : Word) : BitVec.ofNat 8 (aluNot x.toNat) = ~~~x := by
  apply BitVec.eq_of_toNat_eq
  have := x.isLt
  rw [BitVec.toNat_ofNat, BitVec.toNat_not, aluNot]
  omega

theorem aluShiftLeft_word (x y : Word) : BitVec.ofNat 8 (aluShiftLeft x.toNat y.toNat) = x <<< y := by
  apply BitVec.eq_of_toNat_eq; simp [aluShiftLeft]

theorem aluShiftRight_word (x y : Word) : BitVec.ofNat 8 (aluShiftRight x.toNat y.toNat) = x >>> y := by
  apply BitVec.eq_of_toNat_eq
  have h : x.toNat >>> y.toNat < 256 :=
    Nat.lt_of_le_of_lt (Nat.shiftRight_eq_div_pow .. ▸ Nat.div_le_self ..) x.isLt
  simp [aluShiftRight, Nat.mod_eq_of_lt h]

end Sys2Proof.Machine
end

