-- ==== Sys2Proof/Laws/Effect.lean ====
section
/-! SUPPORT. Everything EXECUTE can do to the state, said once for all 20 instructions: `exec_effect`. -/

namespace Sys2Proof.Machine

/-- Why EXECUTE of an instruction raises a fault, with the fault's kind and detail (R201, R203, R205 classes 4 and 5). -/
inductive Cause : Instr → State → FaultKind → FaultDetail → Prop where
  | registerIndex {i : Instr} {s : State} {b : Byte} : b ∈ i.regOperands → 8 ≤ b.toNat →
      Cause i s .outOfRange (.registerIndex b)
  | nextAddress {i : Instr} {s : State} {a : Byte} : i ∈ [.jumpIfEqual a, .jumpIfNotEqual a] →
      256 ≤ s.pc.toNat + 2 → Cause i s .outOfRange (.nextAddress (s.pc.toNat + 2))
  | returnAddress {a : Byte} {s : State} : 256 ≤ s.pc.toNat + 2 →
      Cause (.call a) s .outOfRange (.returnAddress (s.pc.toNat + 2))
  | stackOverflow {i : Instr} {s : State} {a : Byte} : i ∈ [.push a, .call a] → s.sp = 0 →
      Cause i s .outOfRange (.stackOverflow (-1))
  | stackUnderflow {i : Instr} {s : State} {a : Byte} : i ∈ [.pop a, .ret] → 0xF4 ≤ s.sp.toNat →
      Cause i s .outOfRange (.stackUnderflow s.sp)
  | moduloByZero {s : State} {r q : RegIndex} : s.reg q = 0 →
      Cause (.modulo (regByte r) (regByte q)) s .arithmeticError .moduloByZero

/-- What an instruction can do to a state. -/
inductive Effect : Instr → State → State → Prop where
  /-- It took a fault, with its own opcode in the record. -/
  | raised {i : Instr} {s : State} {op : Byte} {rest : List Byte} {kind : FaultKind} {detail : FaultDetail} :
      encode i = op :: rest → Cause i s kind detail → Effect i s (s.raised kind op detail)
  | halt {s : State} : Effect .halt s s.halt
  /-- It wrote its register A and nothing else. -/
  | register {i : Instr} {s : State} (r : RegIndex) (b : Byte) (v : Word) :
      i ∈ [.ldi (regByte r) b, .add (regByte r) b, .multiply (regByte r) b, .modulo (regByte r) b,
        .and (regByte r) b, .or (regByte r) b, .xor (regByte r) b, .not (regByte r),
        .shiftLeft (regByte r) b, .shiftRight (regByte r) b] → Effect i s (s.setReg r v)
  | print {s : State} (r : RegIndex) : Effect (.print (regByte r)) s (s.emit (s.reg r))
  | compare {s : State} (r q : RegIndex) :
      Effect (.compare (regByte r) (regByte q)) s (s.setFlags (compareFlags (s.reg r) (s.reg q)))
  | push {s : State} (r : RegIndex) : s.sp ≠ 0 → Effect (.push (regByte r)) s
      ((s.setReg Config.spIndex (s.sp - 1)).setMem (Memory.write s.mem (s.sp - 1).toNat (s.reg r)))
  | pop {s : State} (r : RegIndex) : s.sp.toNat < 0xF4 → Effect (.pop (regByte r)) s
      ((s.setReg Config.spIndex (s.sp + 1)).setReg r (Memory.read s.mem s.sp.toNat))
  | call {s : State} (r : RegIndex) : s.pc.toNat + 2 < 256 → s.sp ≠ 0 → Effect (.call (regByte r)) s
      (((s.setReg Config.spIndex (s.sp - 1)).setMem
        (Memory.write s.mem (s.sp - 1).toNat (BitVec.ofNat 8 (s.pc.toNat + 2)))).setPc (s.reg r))
  | ret {s : State} : s.sp.toNat < 0xF4 → Effect .ret s
      ((s.setReg Config.spIndex (s.sp + 1)).setPc (Memory.read s.mem s.sp.toNat))
  /-- A jump, or a conditional jump's fall-through. -/
  | jump {i : Instr} {s : State} (r : RegIndex) (v : Byte) :
      i ∈ [.jump (regByte r), .jumpIfEqual (regByte r), .jumpIfNotEqual (regByte r)] →
      Effect i s (s.setPc v)

theorem Effect.of_registerIndex {i : Instr} {s t : State} {op b : Byte} {rest : List Byte}
    (he : encode i = op :: rest) (hb : b ∈ i.regOperands)
    (h : 8 ≤ b.toNat ∧ t = s.raised .outOfRange op (.registerIndex b)) : Effect i s t := by
  obtain ⟨hl, rfl⟩ := h
  exact Effect.raised he (Cause.registerIndex hb hl)

theorem Effect.of_registerIndexes {i : Instr} {s t : State} {op a b : Byte} {rest : List Byte}
    (he : encode i = op :: rest) (ho : i.regOperands = [a, b])
    (h : ∃ c, (c = a ∨ c = b) ∧ 8 ≤ c.toNat ∧ t = s.raised .outOfRange op (.registerIndex c)) :
    Effect i s t := by
  obtain ⟨c, hc, hl, rfl⟩ := h
  exact Effect.raised he (Cause.registerIndex (by simp [ho, hc]) hl)

theorem Effect.of_aluBinary {i : Instr} {op a b : Byte} {f : Nat → Nat → Nat} {s t : State} {rest : List Byte}
    (he : encode i = op :: rest) (ho : i.regOperands = [a, b])
    (hi : ∀ r, a = regByte r → i ∈ [.ldi (regByte r) b, .add (regByte r) b, .multiply (regByte r) b,
      .modulo (regByte r) b, .and (regByte r) b, .or (regByte r) b, .xor (regByte r) b, .not (regByte r),
      .shiftLeft (regByte r) b, .shiftRight (regByte r) b])
    (h : aluBinary op f a b s = .next t) : Effect i s t := by
  rcases aluBinary_next h with h | ⟨r, _, ha, _, rfl⟩
  · exact Effect.of_registerIndexes he ho h
  · exact Effect.register r b _ (hi r ha)

theorem Effect.of_jumpIf {i : Instr} {op a : Byte} {taken : Bool} {s t : State} {rest : List Byte}
    (he : encode i = op :: rest) (ho : i.regOperands = [a]) (hi : i ∈ [.jumpIfEqual a, .jumpIfNotEqual a])
    (h : jumpIf op taken a s = .next t) : Effect i s t := by
  rcases jumpIf_next h with h | ⟨_, hp, rfl⟩ | ⟨r, rfl, ⟨_, rfl⟩ | ⟨_, _, rfl⟩⟩
  · exact Effect.of_registerIndex he (by simp [ho]) h
  · exact Effect.raised he (Cause.nextAddress hi hp)
  · exact Effect.jump r _ (List.mem_cons_of_mem _ hi)
  · exact Effect.jump r _ (List.mem_cons_of_mem _ hi)

/-- Whatever state EXECUTE answers, it is one of these effects of the instruction. -/
theorem exec_effect {i : Instr} {s t : State} (h : exec i s = .next t) : Effect i s t := by
  cases i <;> simp only [exec] at h
  case halt => cases h; exact Effect.halt
  case ldi a imm =>
    rcases withReg_next h with h | ⟨r, rfl, hk⟩
    · exact Effect.of_registerIndex rfl (by simp [Instr.regOperands]) h
    · cases hk; exact Effect.register r imm _ (by simp)
  case print a =>
    rcases withReg_next h with h | ⟨r, rfl, hk⟩
    · exact Effect.of_registerIndex rfl (by simp [Instr.regOperands]) h
    · cases hk; exact Effect.print r
  case push a =>
    rcases withReg_next h with h | ⟨r, rfl, hk⟩
    · exact Effect.of_registerIndex rfl (by simp [Instr.regOperands]) h
    · rcases pushByte_next hk with ⟨hs, rfl⟩ | ⟨hs, hk⟩
      · exact Effect.raised rfl (Cause.stackOverflow (a := regByte r) (by simp) hs)
      · cases hk; exact Effect.push r hs
  case pop a =>
    rcases withReg_next h with h | ⟨r, rfl, hk⟩
    · exact Effect.of_registerIndex rfl (by simp [Instr.regOperands]) h
    · rcases popByte_next hk with ⟨hs, rfl⟩ | ⟨hs, hk⟩
      · exact Effect.raised rfl (Cause.stackUnderflow (a := regByte r) (by simp) hs)
      · cases hk; exact Effect.pop r hs
  case call a =>
    rcases withReg_next h with h | ⟨r, rfl, hk⟩
    · exact Effect.of_registerIndex rfl (by simp [Instr.regOperands]) h
    · split at hk
      · next hp => cases hk; exact Effect.raised rfl (Cause.returnAddress hp)
      · next hp =>
        rcases pushByte_next hk with ⟨hs, rfl⟩ | ⟨hs, hk⟩
        · exact Effect.raised rfl (Cause.stackOverflow (a := regByte r) (by simp) hs)
        · cases hk; exact Effect.call r (Nat.not_le.mp hp) hs
  case ret =>
    rcases popByte_next h with ⟨hs, rfl⟩ | ⟨hs, hk⟩
    · exact Effect.raised rfl (Cause.stackUnderflow (a := 0) (by simp) hs)
    · cases hk; exact Effect.ret hs
  case compare a b =>
    rcases withRegs_next h with h | ⟨r, q, rfl, rfl, hk⟩
    · exact Effect.of_registerIndexes rfl rfl h
    · cases hk; exact Effect.compare r q
  case jump a =>
    rcases withReg_next h with h | ⟨r, rfl, hk⟩
    · exact Effect.of_registerIndex rfl (by simp [Instr.regOperands]) h
    · cases hk; exact Effect.jump r _ (by simp)
  case jumpIfEqual a => exact Effect.of_jumpIf rfl rfl (by simp) h
  case jumpIfNotEqual a => exact Effect.of_jumpIf rfl rfl (by simp) h
  case not a =>
    rcases aluUnary_next h with h | ⟨r, rfl, rfl⟩
    · exact Effect.of_registerIndex rfl (by simp [Instr.regOperands]) h
    · exact Effect.register r 0 _ (by simp)
  case modulo a b =>
    rcases withRegs_next h with h | ⟨r, q, rfl, rfl, hk⟩
    · exact Effect.of_registerIndexes rfl rfl h
    · split at hk
      · next hz => cases hk; exact Effect.raised rfl (Cause.moduloByZero hz)
      · cases hk; exact Effect.register r (regByte q) _ (by simp)
  all_goals exact Effect.of_aluBinary rfl rfl (fun r ha => by simp [ha]) h

end Sys2Proof.Machine
end

