-- ==== Sys2Proof/Laws/PerInstr.lean ====
section
/-! SUPPORT. Statements made for each instruction: the family EncodedWidth says that an encoding is as
wide as the opcode's own bits say, 1 + n bytes (30_encoding.md R79, R82). -/

namespace Sys2Proof.Laws.EncodedWidth

/-- The encoding begins with an opcode of the table and has 1 + op[7:6] bytes. -/
def Statement (i : Instr) : Prop :=
  ∃ op rest, encode i = op :: rest ∧ (formatOf op).isSome = true ∧ rest.length = operandCount op

theorem halt : Statement (.halt) := ⟨_, _, rfl, rfl, rfl⟩
theorem ldi (a imm : Byte) : Statement (.ldi a imm) := ⟨_, _, rfl, rfl, rfl⟩
theorem print (a : Byte) : Statement (.print a) := ⟨_, _, rfl, rfl, rfl⟩
theorem push (a : Byte) : Statement (.push a) := ⟨_, _, rfl, rfl, rfl⟩
theorem pop (a : Byte) : Statement (.pop a) := ⟨_, _, rfl, rfl, rfl⟩
theorem call (a : Byte) : Statement (.call a) := ⟨_, _, rfl, rfl, rfl⟩
theorem ret : Statement (.ret) := ⟨_, _, rfl, rfl, rfl⟩
theorem compare (a b : Byte) : Statement (.compare a b) := ⟨_, _, rfl, rfl, rfl⟩
theorem jump (a : Byte) : Statement (.jump a) := ⟨_, _, rfl, rfl, rfl⟩
theorem jumpIfEqual (a : Byte) : Statement (.jumpIfEqual a) := ⟨_, _, rfl, rfl, rfl⟩
theorem jumpIfNotEqual (a : Byte) : Statement (.jumpIfNotEqual a) := ⟨_, _, rfl, rfl, rfl⟩
theorem add (a b : Byte) : Statement (.add a b) := ⟨_, _, rfl, rfl, rfl⟩
theorem multiply (a b : Byte) : Statement (.multiply a b) := ⟨_, _, rfl, rfl, rfl⟩
theorem and (a b : Byte) : Statement (.and a b) := ⟨_, _, rfl, rfl, rfl⟩
theorem or (a b : Byte) : Statement (.or a b) := ⟨_, _, rfl, rfl, rfl⟩
theorem xor (a b : Byte) : Statement (.xor a b) := ⟨_, _, rfl, rfl, rfl⟩
theorem not (a : Byte) : Statement (.not a) := ⟨_, _, rfl, rfl, rfl⟩
theorem shiftLeft (a b : Byte) : Statement (.shiftLeft a b) := ⟨_, _, rfl, rfl, rfl⟩
theorem shiftRight (a b : Byte) : Statement (.shiftRight a b) := ⟨_, _, rfl, rfl, rfl⟩
theorem modulo (a b : Byte) : Statement (.modulo a b) := ⟨_, _, rfl, rfl, rfl⟩

end Sys2Proof.Laws.EncodedWidth
end

