-- ==== Sys2Proof/Laws/Step.lean ====
section
/-! SUPPORT. What FETCH, DECODE, ADVANCE and a whole step can do, each said once (40_engine.md R102 to R107). -/

namespace Sys2Proof.Machine

/-! ## FETCH and DECODE -/

/-- The instruction a format makes from two operand bytes; a format that has fewer leaves the rest. -/
def buildFrom (f : Format) (b1 b2 : Byte) : Instr :=
  match f with
  | .z i => i
  | .r mk => mk b1
  | .rr mk => mk b1 b2
  | .ri mk => mk b1 b2

/-- The bytes handed to the decoder, by how many there are before the end of memory. -/
theorem instructionBytes_cases (s : State) :
    (s.pc.toNat + 2 < 256 ∧ instructionBytes s =
      [opcodeAt s, Memory.read s.mem (s.pc.toNat + 1), Memory.read s.mem (s.pc.toNat + 2)]) ∨
    (s.pc.toNat = 254 ∧ instructionBytes s = [opcodeAt s, Memory.read s.mem (s.pc.toNat + 1)]) ∨
    (s.pc.toNat = 255 ∧ instructionBytes s = [opcodeAt s]) := by
  have hpc := s.pc.isLt
  by_cases h2 : s.pc.toNat + 2 < 256
  · refine .inl ⟨h2, ?_⟩
    have h1 : s.pc.toNat + 1 < 256 := by omega
    simp [instructionBytes, opcodeAt, h1, h2, hpc]
  · by_cases h1 : s.pc.toNat + 1 < 256
    · refine .inr (.inl ⟨by omega, ?_⟩)
      simp [instructionBytes, opcodeAt, h1, h2, hpc]
    · refine .inr (.inr ⟨by omega, ?_⟩)
      simp [instructionBytes, opcodeAt, h1, h2, hpc]

theorem decodeAt_eq_of_decode {s : State} {i : Instr} {rest : List Byte}
    (h : decode (instructionBytes s) = .ok (i, rest)) : decodeAt s = .ok i := by rw [decodeAt, h]

theorem decodeAt_eq_of_error {s : State} {e : DecodeError}
    (h : decode (instructionBytes s) = .error e) : decodeAt s = .error e := by rw [decodeAt, h]

theorem decodeAt_unsupported {s : State} (h : formatOf (opcodeAt s) = none) :
    decodeAt s = .error (.unsupported (opcodeAt s)) := by
  apply decodeAt_eq_of_error
  rcases instructionBytes_cases s with ⟨_, hb⟩ | ⟨_, hb⟩ | ⟨_, hb⟩ <;>
    rw [hb, decode_unsupported h]

/-- Every operand byte in memory: the instruction is decoded. -/
theorem decodeAt_ok {s : State} {f : Format} (h : formatOf (opcodeAt s) = some f)
    (hl : s.pc.toNat + f.operands < 256) :
    decodeAt s = .ok (buildFrom f (Memory.read s.mem (s.pc.toNat + 1)) (Memory.read s.mem (s.pc.toNat + 2))) := by
  rcases instructionBytes_cases s with ⟨_, hb⟩ | ⟨hpc, hb⟩ | ⟨hpc, hb⟩
  · cases f with
    | z i => exact decodeAt_eq_of_decode (hb ▸ decode_z h _)
    | r mk => exact decodeAt_eq_of_decode (hb ▸ decode_r h _ _)
    | rr mk => exact decodeAt_eq_of_decode (hb ▸ decode_rr h _ _ _)
    | ri mk => exact decodeAt_eq_of_decode (hb ▸ decode_ri h _ _ _)
  · cases f with
    | z i => exact decodeAt_eq_of_decode (hb ▸ decode_z h _)
    | r mk => exact decodeAt_eq_of_decode (hb ▸ decode_r h _ _)
    | rr mk => simp only [Format.operands] at hl; omega
    | ri mk => simp only [Format.operands] at hl; omega
  · cases f with
    | z i => exact decodeAt_eq_of_decode (hb ▸ decode_z h _)
    | r mk => simp only [Format.operands] at hl; omega
    | rr mk => simp only [Format.operands] at hl; omega
    | ri mk => simp only [Format.operands] at hl; omega

/-- An operand byte past the end of memory: the first such byte is at address 256. -/
theorem decodeAt_missing {s : State} {f : Format} (h : formatOf (opcodeAt s) = some f)
    (hl : 256 ≤ s.pc.toNat + f.operands) :
    ∃ k, s.pc.toNat + k = 256 ∧ decodeAt s = .error (.missingByte k) := by
  have hop : f.operands ≤ 2 := by cases f <;> simp [Format.operands]
  rcases instructionBytes_cases s with ⟨hpc, _⟩ | ⟨hpc, hb⟩ | ⟨hpc, hb⟩
  · omega
  · exact ⟨2, by omega, decodeAt_eq_of_error (hb ▸ decode_short h (by simp only [List.length]; omega))⟩
  · exact ⟨1, by omega, decodeAt_eq_of_error (hb ▸ decode_short h (by simp only [List.length]; omega))⟩

/-- What DECODE found, when it found an instruction. -/
theorem decodeAt_ok_cases {s : State} {i : Instr} (h : decodeAt s = .ok i) :
    ∃ f, formatOf (opcodeAt s) = some f ∧ s.pc.toNat + f.operands < 256 ∧
      i = buildFrom f (Memory.read s.mem (s.pc.toNat + 1)) (Memory.read s.mem (s.pc.toNat + 2)) := by
  cases hf : formatOf (opcodeAt s) with
  | none => rw [decodeAt_unsupported hf] at h; cases h
  | some f =>
    by_cases hl : s.pc.toNat + f.operands < 256
    · rw [decodeAt_ok hf hl] at h
      cases h
      exact ⟨f, rfl, hl, rfl⟩
    · obtain ⟨k, _, hk⟩ := decodeAt_missing hf (Nat.not_lt.mp hl)
      rw [hk] at h
      cases h

/-- What DECODE raises, when it finds none. -/
theorem raiseDecode_cases {s : State} {e : DecodeError} (h : decodeAt s = .error e) :
    (formatOf (opcodeAt s) = none ∧
      raiseDecode e s = .next (s.raised .unsupportedInstruction (opcodeAt s) .empty)) ∨
    ∃ f, formatOf (opcodeAt s) = some f ∧ 256 ≤ s.pc.toNat + f.operands ∧
      raiseDecode e s = .next (s.raised .outOfRange (opcodeAt s) (.address 256)) := by
  cases hf : formatOf (opcodeAt s) with
  | none =>
    rw [decodeAt_unsupported hf] at h
    cases h
    exact .inl ⟨rfl, rfl⟩
  | some f =>
    by_cases hl : s.pc.toNat + f.operands < 256
    · rw [decodeAt_ok hf hl] at h; cases h
    · obtain ⟨k, hk, he⟩ := decodeAt_missing hf (Nat.not_lt.mp hl)
      rw [he] at h
      cases h
      exact .inr ⟨f, rfl, Nat.not_lt.mp hl, by rw [raiseDecode, raise_eq, hk]⟩

/-- In every row the encoding of the instruction the format makes begins with the row's opcode byte. -/
theorem opcodeTable_encode (b1 b2 : Byte) :
    ∀ row ∈ opcodeTable, (encode (buildFrom row.2 b1 b2)).head? = some row.1 := by
  simp [opcodeTable, buildFrom, encode]

/-- The decoded instruction's encoding begins with the byte fetched. -/
theorem encode_buildFrom {op : Byte} {f : Format} (h : formatOf op = some f) (b1 b2 : Byte) :
    ∃ rest, encode (buildFrom f b1 b2) = op :: rest :=
  List.head?_eq_some_iff.mp (opcodeTable_encode b1 b2 (op, f) (formatOf_mem h))

/-- The bytes handed to the decoder are those of memory, each at its own address (R103). -/
theorem instructionBytes_getElem? {s : State} {k : Nat} (hk : k ≤ 2) (h : s.pc.toNat + k < 256) :
    (instructionBytes s)[k]? = some (Memory.read s.mem (s.pc.toNat + k)) := by
  have hk : k = 0 ∨ k = 1 ∨ k = 2 := by omega
  rcases instructionBytes_cases s with ⟨_, hb⟩ | ⟨_, hb⟩ | ⟨_, hb⟩ <;> rcases hk with rfl | rfl | rfl <;>
    first
    | omega
    | rw [hb]; rfl

/-! ## EXECUTE -/

/-- A result is a next state. -/
def Answers (r : Result) : Prop := ∃ t, r = .next t

theorem Answers.next (t : State) : Answers (.next t) := ⟨t, rfl⟩

theorem Answers.withReg {op b : Byte} {s : State} {k : RegIndex → Result} (hk : ∀ r, Answers (k r)) :
    Answers (withReg op b s k) := by
  rcases withReg_cases op b s k with ⟨_, h⟩ | ⟨r, _, h⟩
  · exact ⟨_, h⟩
  · exact h ▸ hk r

theorem Answers.withRegs {op a b : Byte} {s : State} {k : RegIndex → RegIndex → Result}
    (hk : ∀ r q, Answers (k r q)) : Answers (withRegs op a b s k) :=
  Answers.withReg fun r => Answers.withReg (hk r)

theorem Answers.pushByte {op v : Byte} {s : State} {k : State → Result} (hk : ∀ u, Answers (k u)) :
    Answers (pushByte op v s k) := by
  by_cases hs : s.sp = 0
  · exact ⟨_, pushByte_overflow op v hs k⟩
  · exact pushByte_stores op v hs k ▸ hk _

theorem Answers.popByte {op : Byte} {s : State} {k : Byte → State → Result} (hk : ∀ v u, Answers (k v u)) :
    Answers (popByte op s k) := by
  by_cases hs : s.sp.toNat < 0xF4
  · exact popByte_loads op hs k ▸ hk _ _
  · exact ⟨_, popByte_underflow op (Nat.not_lt.mp hs) k⟩

theorem Answers.movePc (op : Byte) (width : Nat) (s : State) : Answers (movePc op width s) := by
  by_cases hs : s.pc.toNat + width < 256
  · exact ⟨_, movePc_fits op hs⟩
  · exact ⟨_, movePc_past op (Nat.not_lt.mp hs)⟩

theorem Answers.jumpIf (op : Byte) (taken : Bool) (a : Byte) (s : State) : Answers (jumpIf op taken a s) :=
  Answers.withReg fun r => by
    cases taken
    · exact Answers.movePc op 2 s
    · exact Answers.next _

theorem Answers.aluBinary (op : Byte) (f : Nat → Nat → Nat) (a b : Byte) (s : State) :
    Answers (aluBinary op f a b s) := Answers.withRegs fun _ _ => Answers.next _

theorem Answers.aluUnary (op : Byte) (f : Nat → Nat) (a : Byte) (s : State) :
    Answers (aluUnary op f a s) := Answers.withReg fun _ => Answers.next _

/-- No meaning ends in a fault outside the state or in a refusal: each answers a next state. -/
theorem exec_answers (i : Instr) (s : State) : Answers (exec i s) := by
  cases i <;> simp only [exec]
  case halt => exact Answers.next _
  case ldi a imm => exact Answers.withReg fun _ => Answers.next _
  case print a => exact Answers.withReg fun _ => Answers.next _
  case push a => exact Answers.withReg fun _ => Answers.pushByte Answers.next
  case pop a => exact Answers.withReg fun _ => Answers.popByte fun _ _ => Answers.next _
  case call a =>
    refine Answers.withReg fun _ => ?_
    split
    · exact Answers.next _
    · exact Answers.pushByte fun _ => Answers.next _
  case ret => exact Answers.popByte fun _ _ => Answers.next _
  case compare a b => exact Answers.withRegs fun _ _ => Answers.next _
  case jump a => exact Answers.withReg fun _ => Answers.next _
  case jumpIfEqual a => exact Answers.jumpIf ..
  case jumpIfNotEqual a => exact Answers.jumpIf ..
  case not a => exact Answers.aluUnary ..
  case modulo a b =>
    refine Answers.withRegs fun _ _ => ?_
    split <;> exact Answers.next _
  all_goals exact Answers.aluBinary ..

/-! ## ADVANCE (R106) -/

theorem advance_ended (op : Byte) {t : State} (h : t.status ≠ .running) : advance op (.next t) = .next t := by
  simp only [advance]
  split
  · next hs _ => exact absurd hs h
  · rfl

theorem advance_setsPc {op : Byte} (h : setsPc op = true) (t : State) : advance op (.next t) = .next t := by
  simp only [advance]
  split
  · next _ hp => simp [h] at hp
  · rfl

theorem advance_moves {op : Byte} (h : setsPc op = false) {t : State} (hs : t.status = .running) :
    advance op (.next t) = movePc op (1 + operandCount op) t := by
  simp [advance, hs, h]

/-! ## A whole step (R107) -/

theorem step_ended {s : State} (h : s.status ≠ .running) : step s = .next s := by
  unfold step
  cases hs : s.status with
  | running => exact absurd hs h
  | halted => rfl
  | faulted => rfl

theorem step_decoded {s : State} {i : Instr} (hs : s.status = .running) (h : decodeAt s = .ok i) :
    step s = advance (opcodeAt s) (exec i s) := by simp only [step, hs, h]

theorem step_undecoded {s : State} {e : DecodeError} (hs : s.status = .running) (h : decodeAt s = .error e) :
    step s = raiseDecode e s := by simp only [step, hs, h]

/-- What a step of a running machine can do: DECODE raised; or EXECUTE ended the run (it raised or
halted) or set the pc itself; or ADVANCE moved the pc; or ADVANCE raised and left EXECUTE's effects. -/
theorem step_cases {s t : State} (hs : s.status = .running) (h : step s = .next t) :
    (formatOf (opcodeAt s) = none ∧ t = s.raised .unsupportedInstruction (opcodeAt s) .empty) ∨
    (∃ f, formatOf (opcodeAt s) = some f ∧ 256 ≤ s.pc.toNat + f.operands ∧
      t = s.raised .outOfRange (opcodeAt s) (.address 256)) ∨
    ∃ i f u, decodeAt s = .ok i ∧ formatOf (opcodeAt s) = some f ∧ s.pc.toNat + f.operands < 256 ∧
      i = buildFrom f (Memory.read s.mem (s.pc.toNat + 1)) (Memory.read s.mem (s.pc.toNat + 2)) ∧
      exec i s = .next u ∧
      ((u.status ≠ .running ∧ t = u) ∨
       (u.status = .running ∧ setsPc (opcodeAt s) = true ∧ t = u) ∨
       (u.status = .running ∧ setsPc (opcodeAt s) = false ∧ u.pc.toNat + (1 + f.operands) < 256 ∧
         t = u.setPc (BitVec.ofNat 8 (u.pc.toNat + (1 + f.operands)))) ∨
       (u.status = .running ∧ setsPc (opcodeAt s) = false ∧ 256 ≤ u.pc.toNat + (1 + f.operands) ∧
         t = u.raised .outOfRange (opcodeAt s) (.nextAddress (u.pc.toNat + (1 + f.operands))))) := by
  cases hd : decodeAt s with
  | error e =>
    rw [step_undecoded hs hd] at h
    rcases raiseDecode_cases hd with ⟨hf, hr⟩ | ⟨f, hf, hl, hr⟩
    · rw [hr] at h; cases h; exact .inl ⟨hf, rfl⟩
    · rw [hr] at h; cases h; exact .inr (.inl ⟨f, hf, hl, rfl⟩)
  | ok i =>
    obtain ⟨f, hf, hl, hi⟩ := decodeAt_ok_cases hd
    obtain ⟨u, hu⟩ := exec_answers i s
    refine .inr (.inr ⟨i, f, u, rfl, hf, hl, hi, hu, ?_⟩)
    rw [step_decoded hs hd, hu] at h
    by_cases hr : u.status = .running
    · cases hp : setsPc (opcodeAt s) with
      | true =>
        rw [advance_setsPc hp] at h
        cases h
        exact .inr (.inl ⟨hr, rfl, rfl⟩)
      | false =>
        rw [advance_moves hp hr, operandCount_eq hf] at h
        rcases movePc_next h with ⟨hm, rfl⟩ | ⟨hm, rfl⟩
        · exact .inr (.inr (.inr ⟨hr, rfl, hm, rfl⟩))
        · exact .inr (.inr (.inl ⟨hr, rfl, hm, rfl⟩))
    · rw [advance_ended _ hr] at h
      cases h
      exact .inl ⟨hr, rfl⟩

end Sys2Proof.Machine
end

