-- ==== Sys2Proof/Machine/Text.lean ====
section
/-! DEFINITION. The two texts the spec gives for a program: the image text that the host's loader reads
(70_reset_and_hazards.md R232) and the assembly of 30_encoding.md R83 to R85. Neither is part of the core:
no step reads a text (00_scope.md R5, decision D26; log 34). -/

namespace Sys2Proof.Machine

/-! ## Lines and literals -/

/-- The characters before a `#`, which starts a comment to the end of the line (R83, R232). -/
def stripComment : List Char → List Char
  | [] => []
  | c :: cs => if c = '#' then [] else c :: stripComment cs

/-- The pieces between the separators. -/
def splitAt (sep : Char) : List Char → List (List Char)
  | [] => [[]]
  | c :: cs =>
    match splitAt sep cs with
    | [] => [[c]]
    | w :: ws => if c = sep then [] :: w :: ws else (c :: w) :: ws

/-- A blank: a space, a tab or a carriage return (DESIGN CHOICE, log 34, safe). -/
def isBlank (c : Char) : Bool := c = ' ' || c = '\t' || c = '\r'

def trim (cs : List Char) : List Char := ((cs.dropWhile isBlank).reverse.dropWhile isBlank).reverse

/-- The value of a digit in a base up to 16, in either case (DESIGN CHOICE, log 34, safe). -/
def digit (base : Nat) (c : Char) : Option Nat :=
  let v := if '0' ≤ c ∧ c ≤ '9' then c.toNat - '0'.toNat
    else if 'a' ≤ c ∧ c ≤ 'f' then c.toNat - 'a'.toNat + 10
    else if 'A' ≤ c ∧ c ≤ 'F' then c.toNat - 'A'.toNat + 10
    else base
  if v < base then some v else none

/-- The value of one or more digits; leading zeros are allowed (DESIGN CHOICE, log 34, safe). -/
def digits (base : Nat) : List Char → Option Nat
  | [] => none
  | cs => cs.foldlM (fun n c => (digit base c).map (n * base + ·)) 0

/-- A decimal or `0b` binary literal (R232). -/
def imageLiteral : List Char → Option Nat
  | '0' :: 'b' :: cs => digits 2 cs
  | cs => digits 10 cs

/-- An immediate of the assembly: also `0x` hexadecimal (R83). -/
def immediate : List Char → Option Nat
  | '0' :: 'x' :: cs => digits 16 cs
  | cs => imageLiteral cs

/-! ## The program image (R232) -/

/-- The literals of an image text, one a line; blank and comment-only lines take no address (R232). None is a
malformed literal: a load error, and the core never starts. -/
def imageOfText (text : List Char) : Option (List Nat) :=
  (((splitAt '\n' text).map (trim ∘ stripComment)).filter (!·.isEmpty)).mapM imageLiteral

/-- The state in which a run of an image text starts (R230, R232). -/
def loadText (text : List Char) : Option State := (imageOfText text).bind loadImage

/-! ## Assembly (R83 to R85) -/

/-- The mnemonics of R75 and the aliases of R85. There are no others, and no pseudo-instruction (R84). -/
def mnemonics : List (String × Byte) :=
  [ ("HALT", Opcode.halt), ("LDI", Opcode.ldi), ("PRINT", Opcode.print), ("PUSH", Opcode.push),
    ("POP", Opcode.pop), ("CALL", Opcode.call), ("RETURN", Opcode.ret), ("COMPARE", Opcode.compare),
    ("JUMP", Opcode.jump), ("JUMP-IF-EQUAL", Opcode.jumpIfEqual),
    ("JUMP-IF-NOT-EQUAL", Opcode.jumpIfNotEqual), ("ADD", Opcode.add), ("MULTIPLY", Opcode.multiply),
    ("AND", Opcode.and), ("OR", Opcode.or), ("XOR", Opcode.xor), ("NOT", Opcode.not),
    ("SHIFT-LEFT", Opcode.shiftLeft), ("SHIFT-RIGHT", Opcode.shiftRight), ("MODULO", Opcode.modulo),
    ("HLT", Opcode.halt), ("PRN", Opcode.print), ("RET", Opcode.ret), ("CMP", Opcode.compare),
    ("JMP", Opcode.jump), ("JEQ", Opcode.jumpIfEqual), ("JNE", Opcode.jumpIfNotEqual),
    ("MUL", Opcode.multiply), ("SHL", Opcode.shiftLeft), ("SHR", Opcode.shiftRight),
    ("MOD", Opcode.modulo) ]

/-- The opcode a mnemonic names. -/
def opcodeOfMnemonic (name : List Char) : List (String × Byte) → Option Byte
  | [] => none
  | (m, op) :: rest => if m.toList = name then some op else opcodeOfMnemonic name rest

/-- A register is written `R0` to `R7` (R83), with a capital letter (DESIGN CHOICE, log 34, safe). -/
def registerOperand : List Char → Option Byte
  | ['R', c] => match digit 8 c with
    | some v => some (BitVec.ofNat 8 v)
    | none => none
  | _ => none

/-- An immediate is a literal from 0 to 255 (R83). -/
def immediateOperand (cs : List Char) : Option Byte :=
  match immediate cs with
  | some v => if v < 256 then some (BitVec.ofNat 8 v) else none
  | none => none

/-- One statement: the mnemonic, then its operands separated by commas, in encoding order (R83). Blanks stand
after the mnemonic and may stand around an operand (DESIGN CHOICE, log 34, safe). -/
def assembleStatement (cs : List Char) : Option Instr :=
  let name := cs.takeWhile (fun c => !isBlank c)
  let rest := trim (cs.drop name.length)
  let operands := if rest.isEmpty then [] else (splitAt ',' rest).map trim
  match (opcodeOfMnemonic name mnemonics).bind formatOf, operands with
  | some (.z i), [] => some i
  | some (.r mk), [a] => (registerOperand a).map mk
  | some (.rr mk), [a, b] => (registerOperand a).bind fun x => (registerOperand b).map (mk x)
  | some (.ri mk), [a, v] => (registerOperand a).bind fun x => (immediateOperand v).map (mk x)
  | _, _ => none

/-- The bytes of an assembly text: one statement a line, or several separated by `;` (R83). R83 is silent on an
empty statement (a blank line, a stray or trailing `;`): it is skipped and makes no byte, and a text with a
statement that is no instruction has no bytes (DESIGN CHOICE, log 34, safe). -/
def assemble (text : List Char) : Option (List Byte) :=
  let statements := ((splitAt '\n' text).map stripComment).flatMap (fun l => (splitAt ';' l).map trim)
  ((statements.filter (!·.isEmpty)).mapM assembleStatement).map (·.flatMap encode)

end Sys2Proof.Machine
end

