-- ==== Sys2Proof/Tests/Slice0.lean ====
section
/-! SUPPORT. The model's own tests: ill-formed terms, decoding of words written out from 30_encoding.md R75
and R76, single steps whose expected results are those of 95_test_vectors.md or of a rule's own
example, and for each statement with hypotheses a witness that meets them. -/

namespace Sys2Proof.Tests

open Sys2Proof.Machine

/-! ## Helpers -/

/-- The reset state with these bytes from address 0. -/
def prog (bytes : List Byte) : State := State.reset.setMem (Memory.writeBytes [] 0 bytes)

/-- The same with R0 and R1 set, as the vectors of 95_test_vectors.md section 2.1 have them. -/
def prog01 (bytes : List Byte) (x y : Word) : State := ((prog bytes).setReg 0 x).setReg 1 y

/-- The state a result holds. -/
def stateOf : Result → Option State
  | .next t => some t
  | .fault _ => none
  | .refused _ => none

/-- What one step leaves, seen through `f`. -/
def see {α : Type} (s : State) (f : State → α) : Option α := (stateOf (step s)).map f

/-- The fault record after one step. -/
def faultOf (s : State) : Option (Option FaultRecord) := see s State.fault

/-! ## WellFormed refuses an ill-formed term at each register operand (R21) -/

theorem test_illformed_one_operand :
    [Instr.ldi 8 0, .print 8, .push 9, .pop 255, .call 8, .jump 8, .jumpIfEqual 8, .jumpIfNotEqual 8,
      .not 8].all (fun i => !i.wellFormed) = true := by decide

theorem test_illformed_operand_a :
    [Instr.compare 8 0, .add 8 0, .multiply 8 0, .and 8 0, .or 8 0, .xor 8 0, .shiftLeft 8 0,
      .shiftRight 8 0, .modulo 8 0].all (fun i => !i.wellFormed) = true := by decide

theorem test_illformed_operand_b :
    [Instr.compare 0 8, .add 0 8, .multiply 0 8, .and 0 8, .or 0 8, .xor 0 8, .shiftLeft 0 8,
      .shiftRight 0 8, .modulo 0 8].all (fun i => !i.wellFormed) = true := by decide

theorem test_wellformed : [Instr.halt, .ret, .ldi 7 255, .modulo 7 7].all Instr.wellFormed = true := by decide

/-! ## Decoding: every constructor from the binary column of R75 and the operands of R76 -/

theorem test_decode_halt : decode [0b00000001] = .ok (.halt, []) := by rfl
theorem test_decode_ldi : decode [0b10000010, 0, 8] = .ok (.ldi 0 8, []) := by rfl
theorem test_decode_print : decode [0b01000111, 5] = .ok (.print 5, []) := by rfl
theorem test_decode_push : decode [0b01000101, 7] = .ok (.push 7, []) := by rfl
theorem test_decode_pop : decode [0b01000110, 1] = .ok (.pop 1, []) := by rfl
theorem test_decode_call : decode [0b01010000, 1] = .ok (.call 1, []) := by rfl
theorem test_decode_return : decode [0b00010001, 9] = .ok (.ret, [9]) := by rfl
theorem test_decode_compare : decode [0b10100111, 2, 5] = .ok (.compare 2 5, []) := by rfl
theorem test_decode_jump : decode [0b01010100, 2] = .ok (.jump 2, []) := by rfl
theorem test_decode_jumpIfEqual : decode [0b01010101, 3] = .ok (.jumpIfEqual 3, []) := by rfl
theorem test_decode_jumpIfNotEqual : decode [0b01010110, 3] = .ok (.jumpIfNotEqual 3, []) := by rfl
theorem test_decode_add : decode [0b10100000, 1, 2] = .ok (.add 1 2, []) := by rfl
theorem test_decode_multiply : decode [0b10100010, 1, 2] = .ok (.multiply 1 2, []) := by rfl
theorem test_decode_and : decode [0b10101000, 1, 2] = .ok (.and 1 2, []) := by rfl
theorem test_decode_or : decode [0b10101010, 1, 2] = .ok (.or 1 2, []) := by rfl
theorem test_decode_xor : decode [0b10101011, 1, 2] = .ok (.xor 1 2, []) := by rfl
theorem test_decode_not : decode [0b01101001, 6, 1] = .ok (.not 6, [1]) := by rfl
theorem test_decode_shiftLeft : decode [0b10101100, 1, 2] = .ok (.shiftLeft 1 2, []) := by rfl
theorem test_decode_shiftRight : decode [0b10101101, 1, 2] = .ok (.shiftRight 1 2, []) := by rfl
theorem test_decode_modulo : decode [0b10100100, 1, 2] = .ok (.modulo 1 2, []) := by rfl
/-- Register operands are not masked or checked at decode (R77). -/
theorem test_decode_register_unmasked : decode [0xA0, 8, 255] = .ok (.add 8 255, []) := by rfl
/-- The opcode is checked before operands are taken (R103); R81's examples are illegal. -/
theorem test_decode_illegal :
    [0xFF, 0x00, 0xA1, 0xA3, 0x65, 0x66, 0x84, 0x83, 0x48, 0x52, 0x13, 0x57, 0x5A].all
      (fun op => (formatOf op).isNone) = true := by decide
theorem test_decode_short : decode [0xA0, 1] = .error (.missingByte 2) := by rfl
/-- The opcode table's numbering: LDI R0,8 is bytes 0x82, 0x00, 0x08 from the lowest bits up. -/
theorem test_table_word : decodeTableWord 24 0x080082 = some (.ldi 0 8) := by rfl
theorem test_table_word_narrow : decodeTableWord 8 0x080082 = some (.ldi 0 0) := by rfl
theorem test_fetch_word : see (State.reset.withFetchWord 24 0x080082) (fun t => (t.reg 0, t.pc)) = some (8, 3) := by decide

/-! ## One step of each instruction (95_test_vectors.md section 2, and the rules' examples) -/

theorem test_halt : see (prog [0x01]) (fun t => (t.status, t.pc, t.out)) = some (.halted, 0, []) := by decide
theorem test_ldi : see (prog [0x82, 3, 255]) (fun t => (t.reg 3, t.pc, t.status)) = some (255, 3, .running) := by decide
theorem test_ldi_illegal : faultOf (prog [0x82, 8, 5]) = some (some ⟨.outOfRange, 0, 0x82, .registerIndex 8⟩) := by decide
theorem test_print : see ((prog [0x47, 5]).setReg 5 200) (fun t => (t.out, t.pc)) = some ([200], 2) := by decide
/-- Address 254: the output stays and ADVANCE faults (D10). -/
theorem test_print_at_254 : see (((State.reset.setMem (Memory.writeBytes [] 254 [0x47, 0])).setPc 254).setReg 0 254)
    (fun t => (t.out, t.pc, t.fault)) = some ([254], 254, some ⟨.outOfRange, 254, 0x47, .nextAddress 256⟩) := by decide
theorem test_push_sp : see (prog [0x45, 7]) (fun t => (t.reg 7, Memory.read t.mem 0xF3, t.pc)) = some (0xF3, 0xF4, 2) := by decide
theorem test_push_overflow : see ((prog [0x45, 0]).setReg 7 0) (fun t => (t.reg 7, t.fault)) =
    some (0, some ⟨.outOfRange, 0, 0x45, .stackOverflow (-1)⟩) := by decide
theorem test_pop : see (((prog [0x46, 1]).setReg 7 0xF3).setMem (Memory.writeBytes [] 0 [0x46, 1] |> (Memory.write · 0xF3 0x2A)))
    (fun t => (t.reg 1, t.reg 7, t.pc)) = some (0x2A, 0xF4, 2) := by decide
theorem test_pop_underflow : faultOf (prog [0x46, 1]) = some (some ⟨.outOfRange, 0, 0x46, .stackUnderflow 0xF4⟩) := by decide
theorem test_call : see ((prog [0x50, 1]).setReg 1 0x10) (fun t => (t.pc, t.reg 7, Memory.read t.mem 0xF3)) =
    some (0x10, 0xF3, 2) := by decide
/-- CALL R7 jumps to the old SP (D18). -/
theorem test_call_sp : see (prog [0x50, 7]) (fun t => (t.pc, t.reg 7)) = some (0xF4, 0xF3) := by decide
theorem test_return : see ((prog [0x11]).setMem [(0, 0x11), (0xF3, 6)] |>.setReg 7 0xF3) (fun t => (t.pc, t.reg 7)) =
    some (6, 0xF4) := by decide
theorem test_return_underflow : faultOf (prog [0x11]) = some (some ⟨.outOfRange, 0, 0x11, .stackUnderflow 0xF4⟩) := by decide
theorem test_jump : see ((prog [0x54, 2]).setReg 2 0x20) State.pc = some 0x20 := by decide
theorem test_jeq_taken : see (((prog [0x55, 3]).setReg 3 0x30).setFlags ⟨false, false, true⟩) State.pc = some 0x30 := by decide
theorem test_jeq_illegal_not_taken : faultOf (prog [0x55, 9]) = some (some ⟨.outOfRange, 0, 0x55, .registerIndex 9⟩) := by decide
theorem test_jne_taken : see (((prog [0x56, 3]).setReg 3 0x30).setFlags ⟨true, false, false⟩) State.pc = some 0x30 := by decide
theorem test_jne_falls : see (((prog [0x56, 3]).setReg 3 0x30).setFlags ⟨false, false, true⟩) State.pc = some 2 := by decide
theorem test_add_wraps : see (prog01 [0xA0, 0, 1] 200 100) (fun t => (t.reg 0, t.reg 1, t.pc)) = some (44, 100, 3) := by decide
theorem test_add_illegal_order : faultOf (prog [0xA0, 8, 9]) = some (some ⟨.outOfRange, 0, 0xA0, .registerIndex 8⟩) := by decide
theorem test_multiply_low_byte : see (prog01 [0xA2, 0, 1] 255 255) (State.reg · 0) = some 1 := by decide
theorem test_modulo : see (prog01 [0xA4, 0, 1] 17 5) (State.reg · 0) = some 2 := by decide
theorem test_modulo_zero : see (prog01 [0xA4, 0, 1] 9 0) (fun t => (t.reg 0, t.fault)) =
    some (9, some ⟨.arithmeticError, 0, 0xA4, .moduloByZero⟩) := by decide
theorem test_compare_less : see (prog01 [0xA7, 0, 1] 5 7) State.flags = some ⟨true, false, false⟩ := by decide
theorem test_compare_unsigned : see (prog01 [0xA7, 0, 1] 0x80 0x7F) State.flags = some ⟨false, true, false⟩ := by decide
theorem test_and : see (prog01 [0xA8, 0, 1] 0xCC 0xAA) (State.reg · 0) = some 0x88 := by decide
theorem test_or : see (prog01 [0xAA, 0, 1] 0xCC 0xAA) (State.reg · 0) = some 0xEE := by decide
theorem test_xor : see (prog01 [0xAB, 0, 1] 0xCC 0xAA) (State.reg · 0) = some 0x66 := by decide
theorem test_not : see ((prog [0x69, 2]).setReg 2 0x0F) (fun t => (t.reg 2, t.pc)) = some (0xF0, 2) := by decide
theorem test_shiftLeft_whole_amount : see (prog01 [0xAC, 0, 1] 0xFF 255) (State.reg · 0) = some 0 := by decide
theorem test_shiftLeft_top_bit_lost : see (prog01 [0xAC, 0, 1] 0x81 1) (State.reg · 0) = some 0x02 := by decide
theorem test_shiftRight_logical : see (prog01 [0xAD, 0, 1] 0x80 7) (State.reg · 0) = some 1 := by decide
theorem test_shiftRight_by_8 : see (prog01 [0xAD, 0, 1] 0x80 8) (State.reg · 0) = some 0 := by decide

/-! ## The engine (95_test_vectors.md sections 2.5 and 3) -/

theorem test_illegal_at_255 : faultOf ((State.reset.setMem [(255, 0xFF)]).setPc 255) =
    some (some ⟨.unsupportedInstruction, 255, 0xFF, .empty⟩) := by decide
theorem test_operand_past_memory : see ((State.reset.setMem [(255, 0x47)]).setPc 255) (fun t => (t.out, t.fault)) =
    some ([], some ⟨.outOfRange, 255, 0x47, .address 256⟩) := by decide
theorem test_reset_step : faultOf State.reset = some (some ⟨.unsupportedInstruction, 0, 0x00, .empty⟩) := by decide
/-- A push over its own opcode byte still advances by its own width: SP = 1, `0x45 0` (section 2.3). -/
theorem test_push_over_itself : see (((prog [0x45, 0, 1]).setReg 7 1).setReg 0 9)
    (fun t => (t.reg 7, Memory.read t.mem 0, t.pc)) = some (0, 9, 2) := by decide
theorem test_load_rejects : loadImage [256] = none ∧ loadImage (List.replicate 257 1) = none := by decide +kernel
theorem test_load_places : (loadImage [130, 0, 8]).map (fun s => (s.mem, s.pc)) = some ([(0, 130), (2, 8)], 0) := by decide

/-! ## The texts (30_encoding.md R83, R85, 70_reset_and_hazards.md R232) -/

/-- The source's own example. -/
theorem test_assemble_example : assemble "LDI R0,8; PRINT R0; HALT".toList = some [130, 0, 8, 71, 0, 1] := by decide
/-- The loop of P4, with aliases, comments and the other literal forms. -/
theorem test_assemble_aliases : assemble "LDI R1, 0xFF # minus 1\nLDI R2,0b0\nCMP R0, R2\nJNE R3\nHLT".toList =
    some [130, 1, 255, 130, 2, 0, 167, 0, 2, 86, 3, 1] := by decide
/-- Empty statements are skipped: the model's choice (log 34), so this shows the choice and no rule. -/
theorem test_assemble_skips_empty : assemble "\n;LDI R0,8;;\n# only\nHALT;".toList = some [130, 0, 8, 1] := by decide
theorem test_assemble_rejects : assemble "LDI R8, 1".toList = none ∧ assemble "LDI R0, 256".toList = none ∧
    assemble "SUB R0, R1".toList = none := by decide
theorem test_image_text : imageOfText "0b10000010 # LDI\n0\n\n 8\n# only\n1".toList = some [130, 0, 8, 1] := by decide
theorem test_image_malformed : imageOfText "0x82".toList = none := by decide

/-! ## Witnesses: each shows a state and operands that meet all the hypotheses of the statement it names -/

/-- LDI R0,254; JUMP R0 was run: pc 254, R0 = 254, and these bytes there. -/
def high (bytes : List Byte) : State := ((State.reset.setMem (Memory.writeBytes [] 254 bytes)).setPc 254).setReg 0 254

theorem witness_DecodedBytesAreTheEncoding : decode [0x69, 6, 1] = .ok (.not 6, [1]) := by rfl
theorem witness_OpcodeBitsSayCountAluAndSetsPc : ∃ f, formatOf 0xA0 = some f := ⟨_, rfl⟩
theorem witness_StepRunsTheDecodedInstruction :
    (prog [0x82, 0, 8]).status = .running ∧ decodeAt (prog [0x82, 0, 8]) = .ok (.ldi 0 8) := ⟨rfl, rfl⟩
/-- The last place a two-byte instruction fits. -/
theorem witness_InstructionInMemoryIsDecoded :
    (high [0x47, 3]).pc.toNat + (encode (.print 3)).length ≤ 256 ∧
    ∀ k b, (encode (.print 3))[k]? = some b → Memory.read (high [0x47, 3]).mem ((high [0x47, 3]).pc.toNat + k) = b := by
  refine ⟨by decide, fun k b h => ?_⟩
  match k with
  | 0 => cases h; decide
  | 1 => cases h; decide
  | k + 2 => simp [encode] at h
theorem witness_IllegalOpcodeIsNeverSkipped : State.reset.status = .running ∧
    formatOf (Memory.read State.reset.mem State.reset.pc.toNat) = none := ⟨rfl, rfl⟩
theorem witness_UnsupportedInstructionExactlyForIllegalOpcodes : State.reset.status = .running ∧ State.reset.Inv ∧
    ∃ t r, step State.reset = .next t ∧ t.fault = some r ∧ r.kind = .unsupportedInstruction := by
  refine ⟨rfl, ⟨rfl, rfl, rfl, ?_, ?_⟩, _, _, rfl, rfl, rfl⟩ <;> intro r h <;> cases h
theorem witness_OperandPastMemoryRaises : (high [0xA0, 0]).status = .running ∧
    ∃ f, formatOf (Memory.read (high [0xA0, 0]).mem (high [0xA0, 0]).pc.toNat) = some f ∧
      256 ≤ (high [0xA0, 0]).pc.toNat + f.operands := ⟨rfl, _, rfl, by decide⟩
theorem witness_HaltStopsAndChangesNothingElse : (prog [0x01]).status = .running ∧
    Memory.read (prog [0x01]).mem (prog [0x01]).pc.toNat = 0x01 := ⟨rfl, rfl⟩
theorem witness_OnlyHaltHalts : (prog [0x01]).status = .running ∧ ∃ t, step (prog [0x01]) = .next t ∧ t.status = .halted :=
  ⟨rfl, _, rfl, rfl⟩
theorem witness_EndedRunNeverChanges : (prog [0x01]).halt.ended ∧ Reaches (prog [0x01]).halt (prog [0x01]).halt :=
  ⟨.inl rfl, .tail (.refl _) rfl⟩
theorem witness_PcAdvancesPastTheInstruction : (prog [0x69, 2]).status = .running ∧
    ∃ t, step (prog [0x69, 2]) = .next t ∧ t.status = .running ∧
      setsPc (Memory.read (prog [0x69, 2]).mem (prog [0x69, 2]).pc.toNat) = false := ⟨rfl, _, rfl, rfl, rfl⟩
theorem witness_DecodingReadsOnlyPcAndMemory :
    (formatOf (Memory.read (high [0x47, 9]).mem (high [0x47, 9]).pc.toNat)).isSome = true ∧
    (high [0x47, 9]).pc.toNat + operandCount (Memory.read (high [0x47, 9]).mem (high [0x47, 9]).pc.toNat) < 256 := by decide
theorem witness_LoadedImageIsInMemory : ∃ s, loadImage [130, 0, 8, 71, 0, 1] = some s := ⟨_, rfl⟩
theorem witness_EveryStepKeepsTheInvariant : (prog [0x45, 7]).Inv ∧ ∃ t, step (prog [0x45, 7]) = .next t := by
  refine ⟨⟨rfl, rfl, rfl, ?_, ?_⟩, _, rfl⟩ <;> intro r h <;> cases h
theorem witness_EveryReachableStateHasTheInvariant : ∃ s, Reachable s ∧ s.status = .faulted :=
  ⟨_, ⟨[255], _, rfl, .tail (.refl _) rfl⟩, rfl⟩
theorem witness_FaultNamesTheInstruction : (high [0x47, 0]).status = .running ∧
    ∃ t, step (high [0x47, 0]) = .next t ∧ t.status = .faulted := ⟨rfl, _, rfl, rfl⟩
/-- ADVANCE's fault, at the last place where PRINT fits. -/
theorem witness_FaultLeavesTheRestOfTheState_advance : (high [0x47, 0]).status = .running ∧
    (∃ t, step (high [0x47, 0]) = .next t ∧ t.status = .faulted) ∧ ∃ u, AdvancesPastMemory (high [0x47, 0]) u :=
  ⟨rfl, ⟨_, rfl, rfl⟩, _, _, rfl, rfl, rfl, rfl, rfl⟩
/-- A fault before any effect, at the first address from which no advance reaches 256. -/
theorem witness_FaultLeavesTheRestOfTheState_other : (prog [0xA4, 0, 0]).status = .running ∧
    (∃ t, step (prog [0xA4, 0, 0]) = .next t ∧ t.status = .faulted) ∧
    ∀ u, ¬ AdvancesPastMemory (prog [0xA4, 0, 0]) u := by
  refine ⟨rfl, ⟨_, rfl, rfl⟩, fun u ⟨i, hi, _, _, _, hl⟩ => ?_⟩
  cases hi
  exact absurd hl (by decide)
theorem witness_ArithmeticErrorExactlyForModuloByZero : (prog [0xA4, 0, 0]).Inv ∧ (prog [0xA4, 0, 0]).status = .running ∧
    ∃ t r, step (prog [0xA4, 0, 0]) = .next t ∧ t.fault = some r ∧ r.kind = .arithmeticError := by
  refine ⟨⟨rfl, rfl, rfl, ?_, ?_⟩, rfl, _, _, rfl, rfl, rfl⟩ <;> intro r h <;> cases h
/-- The lowest illegal index, in the second operand. -/
theorem witness_IllegalRegisterOperandRaises :
    (Instr.add 7 8).regOperands.find? (fun c => !legalReg c) = some 8 := by decide
theorem witness_OnlyCompareWritesFlags : (prog [0xA0, 0, 1]).status = .running ∧
    (∃ t, step (prog [0xA0, 0, 1]) = .next t) ∧
    Memory.read (prog [0xA0, 0, 1]).mem (prog [0xA0, 0, 1]).pc.toNat ≠ 0xA7 ∧
    (∃ t, exec (.add 0 1) State.reset = .next t) ∧ ∀ a b, Instr.add 0 1 ≠ .compare a b :=
  ⟨rfl, ⟨_, rfl⟩, by decide, ⟨_, rfl⟩, fun _ _ h => by cases h⟩
/-- JUMP-IF-EQUAL with FL.L and FL.G changed and FL.E kept: no COMPARE. -/
theorem witness_FlagsAreReadOnlyByConditionalJumps : (prog [0x55, 3]).status = .running ∧
    (⟨true, true, false⟩ : Flags).equal = (prog [0x55, 3]).flags.equal ∧
    (∃ t, step (prog [0x55, 3]) = .next t) ∧
    (∃ t', step ((prog [0x55, 3]).setFlags ⟨true, true, false⟩) = .next t') ∧
    ¬ ∃ ra rb, decodeAt (prog [0x55, 3]) = .ok (.compare (regByte ra) (regByte rb)) :=
  ⟨rfl, rfl, ⟨_, rfl⟩, ⟨_, rfl⟩, fun ⟨_, _, h⟩ => by cases h⟩
/-- COMPARE with all three flags changed. -/
theorem witness_FlagsAreReadOnlyByConditionalJumps_compare : (prog [0xA7, 0, 7]).status = .running ∧
    Memory.read (prog [0xA7, 0, 7]).mem (prog [0xA7, 0, 7]).pc.toNat ∉ ([0x55, 0x56] : List Byte) ∧
    (∃ t, step (prog [0xA7, 0, 7]) = .next t) ∧
    (∃ t', step ((prog [0xA7, 0, 7]).setFlags ⟨true, true, true⟩) = .next t') ∧
    decodeAt (prog [0xA7, 0, 7]) = .ok (.compare (regByte 0) (regByte 7)) :=
  ⟨rfl, by decide, ⟨_, rfl⟩, ⟨_, rfl⟩, rfl⟩
theorem witness_OnlyPrintWritesOutput : ∃ t, step (prog [0x47, 7]) = .next t ∧ t.out = [0xF4] := ⟨_, rfl, rfl⟩
theorem witness_OutputIsNeverRead : ∃ t, step (prog [0x47, 7]) = .next t := ⟨_, rfl⟩
theorem witness_OnlyPushAndCallWriteMemory : (prog [0x46, 1]).status = .running ∧
    (∃ t, step (prog [0x46, 1]) = .next t) ∧
    Memory.read (prog [0x46, 1]).mem (prog [0x46, 1]).pc.toNat ∉ ([0x45, 0x50] : List Byte) := ⟨rfl, ⟨_, rfl⟩, by decide⟩
/-- Both sides of the boundary of MemReadRule and MemWriteRule. -/
theorem witness_MemReadRule_MemWriteRule : Memory.wf State.reset.mem = true ∧ 255 < 256 ∧ 256 ≤ 256 := by decide
/-- The lowest SP from which a push stores, and the one from which it raises. -/
theorem witness_PushStoresBelowSp : (State.reset.setReg 7 1).reg 7 ≠ 0 ∧ (State.reset.setReg 7 0).reg 7 = 0 := by decide
/-- The highest SP from which a pop loads, and the lowest from which it raises. -/
theorem witness_PopLoadsFromSp_ReturnPopsThePc :
    ((State.reset.setReg 7 0xF3).reg 7).toNat < 0xF4 ∧ 0xF4 ≤ (State.reset.reg 7).toNat := by decide
theorem witness_CallPushesReturnAddressAndJumps :
    ((State.reset.setPc 253).pc.toNat + 2 < 256 ∧ (State.reset.setPc 253).reg 7 ≠ 0) ∧
    256 ≤ (State.reset.setPc 254).pc.toNat + 2 ∧
    ((State.reset.setReg 7 0).pc.toNat + 2 < 256 ∧ (State.reset.setReg 7 0).reg 7 = 0) := by decide
theorem witness_JumpSetsPcToTheRegister :
    ((high [0x54, 7]).status = .running ∧ Memory.read (high [0x54, 7]).mem (high [0x54, 7]).pc.toNat = 0x54 ∧
      (high [0x54, 7]).pc.toNat < 255 ∧ Memory.read (high [0x54, 7]).mem ((high [0x54, 7]).pc.toNat + 1) = regByte 7) ∧
    8 ≤ (Memory.read (high [0x54, 8]).mem ((high [0x54, 8]).pc.toNat + 1)).toNat ∧
    ((State.reset.setMem [(255, 0x54)]).setPc 255).pc.toNat = 255 := by decide
/-- Taken; falling through at the last pc where it can; and raising at the next. -/
theorem witness_JumpIfEqualJumpsOnEqual_JumpIfNotEqualJumpsOnNotEqual :
    (State.reset.setFlags ⟨false, false, true⟩).flags.equal = true ∧ State.reset.flags.equal = false ∧
    (State.reset.setPc 253).pc.toNat + 2 < 256 ∧ 256 ≤ (State.reset.setPc 254).pc.toNat + 2 := by decide
theorem witness_ModuloWritesTheRemainder : State.reset.reg 7 ≠ 0 ∧ State.reset.reg 0 = 0 := by decide
theorem witness_ShiftsUseTheWholeAmount : 8 ≤ ((State.reset.setReg 1 8).reg 1).toNat := by decide
theorem witness_RegisterHoldsLastWrite : (6 : RegIndex) ≠ 7 := by decide
theorem witness_RegisterWritersFrame : (Instr.ldi 3 9) ∈ [Instr.ldi 3 9, .add 3 9] ∧
    ∃ t, exec (.ldi 3 9) State.reset = .next t ∧ t.status = State.reset.status ∧ regByte 2 ≠ 3 := ⟨by simp, _, rfl, rfl, by decide⟩
theorem witness_NonWritersFrame : ∃ t, exec (.compare 0 1) State.reset = .next t ∧ t.status = State.reset.status ∧
    Instr.compare 0 1 ≠ .print 0 := ⟨_, rfl, rfl, by decide⟩
theorem witness_PushAndCallFrame : ∃ t, exec (.push 7) State.reset = .next t ∧ t.status = State.reset.status ∧
    (0xF2 : Nat) ≠ (State.reset.storeReg 7 (State.reset.sp.toNat - 1)).sp.toNat := ⟨_, rfl, rfl, by decide⟩
theorem witness_PushAndCallFrame_call : ∃ t, exec (.call 1) State.reset = .next t ∧ t.status = State.reset.status :=
  ⟨_, rfl, rfl⟩
theorem witness_PopAndReturnFrame : ∃ t, exec (.pop 1) (State.reset.setReg 7 0xF3) = .next t ∧ t.status = .running :=
  ⟨_, rfl, rfl⟩
theorem witness_PopAndReturnFrame_return : ∃ t, exec .ret (State.reset.setReg 7 0xF3) = .next t ∧ t.status = .running :=
  ⟨_, rfl, rfl⟩
theorem witness_ReturnComesBackAfterCall : Memory.wf State.reset.mem = true ∧ State.reset.status = .running ∧
    (State.reset.reg 7).toNat ≤ 0xF4 ∧ ∃ t u, exec (.call 1) State.reset = .next t ∧ t.status = .running ∧
      exec .ret t = .next u := ⟨rfl, rfl, by decide, _, _, rfl, rfl, rfl⟩
theorem witness_StackIsLastInFirstOut : Balanced [.push (regByte 2), .pop (regByte 3)] ∧
    Memory.wf State.reset.mem = true ∧ ∃ t, execAll
      (.push (regByte 7) :: [.push (regByte 2), .pop (regByte 3)] ++ [.pop (regByte 0)]) State.reset = .next t ∧
      t.status = .running := ⟨.pair 2 3 (by decide) .nil, rfl, _, rfl, rfl⟩
/-- P6 of 95_test_vectors.md: PUSH R0 at 6 with SP = 9 and R0 = 1. -/
def p6 : State := ((((prog [130, 7, 9, 130, 0, 1, 69, 0, 71, 0, 1]).setPc 6).setReg 7 9).setReg 0 1)
theorem witness_PushedCodeIsFetched : Memory.wf p6.mem = true ∧ p6.status = .running ∧
    decodeAt p6 = .ok (.push (regByte 0)) ∧ p6.reg 0 = 0x01 ∧ p6.reg 7 ≠ 0 ∧ p6.pc.toNat + 2 < 256 ∧
    ∃ t, step p6 = .next t ∧ t.status = .running ∧ t.pc.toNat + 0 = (p6.reg 7 - 1).toNat :=
  ⟨by decide, rfl, rfl, by decide, by decide, by decide, _, rfl, rfl, by decide⟩
/-- CALL R1 at 0 with SP = 0x12 and R1 = 0x10: its return address is stored at 0x11, where the second byte of
the instruction it calls lies. -/
def callOver : State := ((prog [0x50, 1]).setReg 7 0x12).setReg 1 0x10
theorem witness_PushedCodeIsFetched_call : Memory.wf callOver.mem = true ∧ callOver.status = .running ∧
    decodeAt callOver = .ok (.call (regByte 1)) ∧ callOver.pc + 2 = 2 ∧ callOver.reg 7 ≠ 0 ∧
    callOver.pc.toNat + 2 < 256 ∧
    ∃ t, step callOver = .next t ∧ t.pc.toNat + 1 = (callOver.reg 7 - 1).toNat :=
  ⟨by decide, rfl, rfl, by decide, by decide, by decide, _, rfl, by decide⟩

end Sys2Proof.Tests
end

/-! PROOFS of the statements about the state (spec 10_state.md). First the facts they share: which opcode a
decoded instruction has, what ADVANCE leaves alone, what a fault record holds; then the statements, each from
`exec_effect` (what EXECUTE can do) and `step_cases` (what a step can do). -/

namespace Sys2Proof.Machine

/-! ## The opcode of a decoded instruction (R75, R103) -/

/-- The decoded instruction's encoding begins with the byte fetched. -/
theorem encode_of_decodeAt {s : State} {i : Instr} (h : decodeAt s = .ok i) :
    ∃ rest, encode i = opcodeAt s :: rest := by
  obtain ⟨f, hf, -, rfl⟩ := decodeAt_ok_cases h
  exact encode_buildFrom hf _ _

/-- Every instruction's encoding is an opcode of the table and as many operand bytes as its format has. -/
theorem encode_format (i : Instr) :
    ∃ op rest f, encode i = op :: rest ∧ formatOf op = some f ∧ rest.length = f.operands := by
  cases i <;> exact ⟨_, _, _, rfl, rfl, rfl⟩

theorem length_eq_operands {i : Instr} {op : Byte} {rest : List Byte} {f : Format}
    (he : encode i = op :: rest) (hf : formatOf op = some f) : rest.length = f.operands := by
  obtain ⟨op', rest', f', he', hf', hl⟩ := encode_format i
  cases he.symm.trans he'
  cases hf.symm.trans hf'
  exact hl

/-- The register operands are bytes of the encoding after the opcode (R76). -/
theorem mem_tail_of_mem_regOperands {i : Instr} {op b : Byte} {rest : List Byte}
    (he : encode i = op :: rest) (hb : b ∈ i.regOperands) : b ∈ rest := by
  have hsub : i.regOperands ⊆ (encode i).tail := by
    cases i <;> simp [Instr.regOperands, encode]
  simpa [he] using hsub hb

/-! ## The pc after EXECUTE (R73, R106) -/

/-- EXECUTE of an instruction whose opcode bit 4 is 0 leaves the pc to ADVANCE. -/
theorem exec_keeps_pc {i : Instr} {s t : State} {op : Byte} {rest : List Byte} (h : exec i s = .next t)
    (he : encode i = op :: rest) (hp : setsPc op = false) : t.pc = s.pc := by
  cases exec_effect h with
  | call | ret =>
    cases he
    exact absurd hp (by decide)
  | jump r v hi =>
    simp only [List.mem_cons, List.not_mem_nil, or_false] at hi
    rcases hi with rfl | rfl | rfl <;> cases he <;> exact absurd hp (by decide)
  | _ => rfl

/-! ## The status after EXECUTE (R109) -/

/-- EXECUTE keeps the status and the fault record, or it raised, or it was HALT. -/
theorem exec_status {i : Instr} {s t : State} (h : exec i s = .next t) :
    (t.status = s.status ∧ t.fault = s.fault) ∨ t.status = .faulted ∨ (i = .halt ∧ t = s.halt) := by
  cases exec_effect h with
  | raised => exact .inr (.inl rfl)
  | halt => exact .inr (.inr ⟨rfl, rfl⟩)
  | _ => exact .inl ⟨rfl, rfl⟩

/-! ## The fault record (R200 to R203) -/

/-- What EXECUTE raises is in the spec's tables, where the instruction's bytes all lie in memory. -/
theorem Cause.tabled {i : Instr} {s : State} {kind : FaultKind} {detail : FaultDetail} {op : Byte}
    {rest : List Byte} {f : Format} (hc : Cause i s kind detail) (he : encode i = op :: rest)
    (hf : formatOf op = some f) (hl : s.pc.toNat + f.operands < 256) :
    FaultRecord.tabled ⟨kind, s.pc, op, detail⟩ := by
  have hlen := length_eq_operands he hf
  cases hc with
  | registerIndex hb h8 =>
    have hpos := List.length_pos_of_mem (mem_tail_of_mem_regOperands he hb)
    exact ⟨h8, f, hf, by omega⟩
  | nextAddress hi hp =>
    simp only [List.mem_cons, List.not_mem_nil, or_false] at hi
    have hop : rest.length = 1 ∧ (op = Opcode.jumpIfEqual ∨ op = Opcode.jumpIfNotEqual) := by
      rcases hi with rfl | rfl <;> cases he <;> simp
    exact ⟨by omega, f, hf, by dsimp only; omega, .inr hop.2⟩
  | returnAddress hp =>
    cases he
    simp only [List.length] at hlen
    exact ⟨by omega, rfl, by dsimp only; omega⟩
  | stackOverflow hi hs =>
    simp only [List.mem_cons, List.not_mem_nil, or_false] at hi
    refine ⟨rfl, ?_⟩
    rcases hi with rfl | rfl <;> cases he <;> simp
  | stackUnderflow hi hs =>
    simp only [List.mem_cons, List.not_mem_nil, or_false] at hi
    refine ⟨hs, ?_⟩
    rcases hi with rfl | rfl <;> cases he <;> simp
  | moduloByZero hz =>
    cases he
    exact rfl

/-! ## The invariant -/

/-- A state that has taken no fault has the invariant when its memory and flags are well-formed. -/
theorem State.Inv.of_no_fault {s : State} (hm : Memory.wf s.mem = true) (hf : s.flags.atMostOne = true)
    (hn : s.fault = none) (hs : s.status ≠ .faulted) : s.Inv where
  memory := hm
  flags := hf
  fault_present := by simp [hn, hs]
  fault_here := by simp [hn]
  fault_tabled := by simp [hn]

theorem State.Inv.fault_none {s : State} (h : s.Inv) (hs : s.status = .running) : s.fault = none := by
  simpa [hs] using h.fault_present

/-- Taking a fault of the spec's tables keeps the invariant. -/
theorem State.Inv.raised {s : State} (h : s.Inv) {kind : FaultKind} {op : Byte} {detail : FaultDetail}
    (ht : FaultRecord.tabled ⟨kind, s.pc, op, detail⟩) : (s.raised kind op detail).Inv where
  memory := h.memory
  flags := h.flags
  fault_present := rfl
  fault_here := by rintro r ⟨⟩; rfl
  fault_tabled := by rintro r ⟨⟩; exact ht

theorem compareFlags_exactlyOne (x y : Word) : (compareFlags x y).exactlyOne = true := by
  simp only [compareFlags]
  split
  · rfl
  · split <;> rfl

theorem compareFlags_atMostOne (x y : Word) : (compareFlags x y).atMostOne = true := by
  have h := compareFlags_exactlyOne x y
  rw [Flags.exactlyOne, Bool.and_eq_true] at h
  exact h.1

/-- EXECUTE of an instruction fetched from memory keeps the invariant. -/
theorem exec_keeps_inv {i : Instr} {s t : State} {op : Byte} {rest : List Byte} {f : Format} (hinv : s.Inv)
    (hs : s.status = .running) (he : encode i = op :: rest) (hf : formatOf op = some f)
    (hl : s.pc.toNat + f.operands < 256) (h : exec i s = .next t) : t.Inv := by
  have hn := hinv.fault_none hs
  have hr : s.status ≠ .faulted := by simp [hs]
  cases exec_effect h with
  | raised he' hc =>
    cases he.symm.trans he'
    exact hinv.raised (hc.tabled he hf hl)
  | halt => exact .of_no_fault hinv.memory hinv.flags hn (by simp)
  | compare r q => exact .of_no_fault hinv.memory (compareFlags_atMostOne _ _) hn hr
  | push | call => exact .of_no_fault (Memory.wf_write hinv.memory _ (BitVec.isLt _)) hinv.flags hn hr
  | _ => exact .of_no_fault hinv.memory hinv.flags hn hr

/-- Settles O21: DECODE's, EXECUTE's and ADVANCE's faults are all in the spec's tables, and a step without a
fault writes memory and flags in their canonical forms. -/
theorem everyStepKeepsTheInvariant : Obligations.EveryStepKeepsTheInvariant := by
  intro s t hinv h
  by_cases hs : s.status = .running
  · rcases step_cases hs h with ⟨hf, rfl⟩ | ⟨f, hf, hl, rfl⟩ | ⟨i, f, u, hd, hf, hl, -, hu, ht⟩
    · exact hinv.raised hf
    · exact hinv.raised ⟨rfl, f, hf, hl⟩
    · obtain ⟨rest, he⟩ := encode_of_decodeAt hd
      have hui : u.Inv := exec_keeps_inv hinv hs he hf hl hu
      rcases ht with ⟨-, rfl⟩ | ⟨-, -, rfl⟩ | ⟨hur, -, -, rfl⟩ | ⟨-, hp, hm, rfl⟩
      · exact hui
      · exact hui
      · exact .of_no_fault hui.memory hui.flags (hui.fault_none hur) (by simp [hur])
      · have hpc : u.pc = s.pc := exec_keeps_pc hu he hp
        rw [hpc] at hm
        exact hui.raised ⟨by rw [hpc]; omega, f, hf, by simp only [hpc]; omega, .inl hp⟩
  · rw [step_ended hs] at h
    cases h
    exact hinv

/-! ## Status and pc of a running step (R27, R35, R109) -/

/-- Settles O13: of everything a step can do, only EXECUTE of HALT leaves the status Halted. -/
theorem onlyHaltHalts : Obligations.OnlyHaltHalts := by
  intro s t hs h
  constructor
  · intro ht
    rcases step_cases hs h with ⟨-, rfl⟩ | ⟨f, -, -, rfl⟩ | ⟨i, f, u, hd, -, -, -, hu, ht'⟩
    · cases ht
    · cases ht
    · have hut : u.status = .halted := by
        rcases ht' with ⟨-, rfl⟩ | ⟨-, -, rfl⟩ | ⟨-, -, -, rfl⟩ | ⟨-, -, -, rfl⟩
        · exact ht
        · exact ht
        · exact ht
        · cases ht
      rcases exec_status hu with ⟨hk, -⟩ | hk | ⟨rfl, -⟩
      · simp [hk, hs] at hut
      · simp [hk] at hut
      · obtain ⟨rest, he⟩ := encode_of_decodeAt hd
        exact (List.cons.inj he).1.symm
  · intro hop
    have hf : formatOf (opcodeAt s) = some (.z .halt) := by rw [opcodeAt, hop]; rfl
    have hd : decodeAt s = .ok .halt := decodeAt_ok hf s.pc.isLt
    rw [step_decoded hs hd, exec, execHalt, advance_ended _ (by simp)] at h
    cases h
    rfl

/-- Settles O16: with opcode bit 4 clear EXECUTE leaves the pc, and ADVANCE moves it once without a wrap. -/
theorem pcAdvancesPastTheInstruction : Obligations.PcAdvancesPastTheInstruction := by
  intro s t hs h ht hp
  change setsPc (opcodeAt s) = false at hp
  change t.pc.toNat = s.pc.toNat + 1 + operandCount (opcodeAt s)
  rcases step_cases hs h with ⟨-, rfl⟩ | ⟨f, -, -, rfl⟩ | ⟨i, f, u, hd, hf, -, -, hu, ht'⟩
  · cases ht
  · cases ht
  · rcases ht' with ⟨hn, rfl⟩ | ⟨-, hp', -⟩ | ⟨-, -, hm, rfl⟩ | ⟨-, -, -, rfl⟩
    · exact absurd ht hn
    · simp [hp] at hp'
    · obtain ⟨rest, he⟩ := encode_of_decodeAt hd
      have hpc : u.pc = s.pc := exec_keeps_pc hu he hp
      rw [State.setPc_pc, BitVec.toNat_ofNat, Nat.mod_eq_of_lt hm, hpc, operandCount_eq hf]
      omega
    · cases ht

end Sys2Proof.Machine

/-! Who writes and who reads the flags and the output stream (R31, R32, R36). -/

namespace Sys2Proof.Machine

/-! ## What ADVANCE and a decoding fault leave alone (R106, R200) -/

/-- The registers, the flags, memory and the output are the same: what moving the pc and taking a fault keep. -/
structure SameData (s t : State) : Prop where
  regs : t.regs = s.regs
  flags : t.flags = s.flags
  mem : t.mem = s.mem
  out : t.out = s.out

theorem SameData.refl (s : State) : SameData s s := ⟨rfl, rfl, rfl, rfl⟩

theorem SameData.raised (s : State) (kind : FaultKind) (op : Byte) (detail : FaultDetail) :
    SameData s (s.raised kind op detail) := ⟨rfl, rfl, rfl, rfl⟩

theorem SameData.setPc (s : State) (v : Byte) : SameData s (s.setPc v) := ⟨rfl, rfl, rfl, rfl⟩

theorem advance_sameData {op : Byte} {u t : State} (h : advance op (.next u) = .next t) : SameData u t := by
  by_cases hr : u.status = .running
  · cases hp : setsPc op with
    | true =>
      rw [advance_setsPc hp] at h
      cases h
      exact .refl u
    | false =>
      rw [advance_moves hp hr] at h
      rcases movePc_next h with ⟨-, rfl⟩ | ⟨-, rfl⟩
      · exact .raised ..
      · exact .setPc ..
  · rw [advance_ended _ hr] at h
    cases h
    exact .refl u

/-- A step that decodes an instruction leaves the data that EXECUTE of it leaves. -/
theorem step_sameData {s t : State} {i : Instr} (hs : s.status = .running) (hd : decodeAt s = .ok i)
    (h : step s = .next t) : ∃ u, exec i s = .next u ∧ SameData u t := by
  obtain ⟨u, hu⟩ := exec_answers i s
  rw [step_decoded hs hd, hu] at h
  exact ⟨u, hu, advance_sameData h⟩

/-- A step that decodes no instruction keeps the data. -/
theorem step_sameData_of_error {s t : State} {e : DecodeError} (hs : s.status = .running)
    (hd : decodeAt s = .error e) (h : step s = .next t) : SameData s t := by
  rw [step_undecoded hs hd] at h
  rcases raiseDecode_cases hd with ⟨-, hr⟩ | ⟨f, -, -, hr⟩ <;> rw [hr] at h <;> cases h <;> exact .raised ..

/-! ## The flags (R31) -/

theorem exec_compare (r q : RegIndex) (s : State) : exec (.compare (regByte r) (regByte q)) s =
    .next (s.setFlags (compareFlags (s.reg r) (s.reg q))) := by
  rw [exec, execCompare, withRegs_regByte]

/-- EXECUTE of anything but a COMPARE of two registers keeps the flags. -/
theorem exec_keeps_flags {i : Instr} {s t : State} (h : exec i s = .next t)
    (hi : ∀ r q, i ≠ .compare (regByte r) (regByte q)) : t.flags = s.flags := by
  cases exec_effect h with
  | compare r q => exact absurd rfl (hi r q)
  | _ => rfl

theorem step_compare_flags {s t : State} {r q : RegIndex} (hs : s.status = .running)
    (hd : decodeAt s = .ok (.compare (regByte r) (regByte q))) (h : step s = .next t) :
    t.flags = compareFlags (s.reg r) (s.reg q) := by
  obtain ⟨u, hu, hd⟩ := step_sameData hs hd h
  rw [exec_compare] at hu
  cases hu
  exact hd.flags

theorem step_keeps_flags {s t : State} (hs : s.status = .running) (h : step s = .next t)
    (hn : ∀ r q, decodeAt s ≠ .ok (.compare (regByte r) (regByte q))) : t.flags = s.flags := by
  cases hd : decodeAt s with
  | error e => exact (step_sameData_of_error hs hd h).flags
  | ok i =>
    obtain ⟨u, hu, hut⟩ := step_sameData hs hd h
    rw [hut.flags]
    exact exec_keeps_flags hu fun r q hi => hn r q (by rw [hd, hi])

/-- Settles O27: only the COMPARE of two registers has an effect on the flags, and its flags are exactly one. -/
theorem onlyCompareWritesFlags : Obligations.OnlyCompareWritesFlags := by
  refine ⟨fun s t hs h hop => ?_, fun i s t h hi => ?_, fun ra rb s => ?_⟩
  · refine step_keeps_flags hs h fun r q hd => hop ?_
    obtain ⟨rest, he⟩ := encode_of_decodeAt hd
    exact (List.cons.inj he).1.symm
  · exact exec_keeps_flags h fun r q => hi _ _
  · exact ⟨_, compareFlags_exactlyOne (s.reg ra) (s.reg rb), fun old => exec_compare ra rb (s.setFlags old)⟩

/-! ## The output stream (R36) -/

theorem exec_print (r : RegIndex) (s : State) : exec (.print (regByte r)) s = .next (s.emit (s.reg r)) := by
  rw [exec, execPrint, withReg_regByte]

/-- EXECUTE of anything but a PRINT of a register keeps the output. -/
theorem exec_keeps_out {i : Instr} {s t : State} (h : exec i s = .next t)
    (hi : ∀ r, i ≠ .print (regByte r)) : t.out = s.out := by
  cases exec_effect h with
  | print r => exact absurd rfl (hi r)
  | _ => rfl

theorem step_print_out {s t : State} {r : RegIndex} (hs : s.status = .running)
    (hd : decodeAt s = .ok (.print (regByte r))) (h : step s = .next t) : t.out = s.out ++ [s.reg r] := by
  obtain ⟨u, hu, hd⟩ := step_sameData hs hd h
  rw [exec_print] at hu
  cases hu
  exact hd.out

theorem step_keeps_out {s t : State} (hs : s.status = .running) (h : step s = .next t)
    (hn : ∀ r, decodeAt s ≠ .ok (.print (regByte r))) : t.out = s.out := by
  cases hd : decodeAt s with
  | error e => exact (step_sameData_of_error hs hd h).out
  | ok i =>
    obtain ⟨u, hu, hut⟩ := step_sameData hs hd h
    rw [hut.out]
    exact exec_keeps_out hu fun r hi => hn r (by rw [hd, hi])

/-- Settles O29: a running step appends by PRINT of a register alone, and an ended one changes nothing. -/
theorem onlyPrintWritesOutput : Obligations.OnlyPrintWritesOutput := by
  intro s t h
  by_cases hs : s.status = .running
  · by_cases hp : ∃ r, decodeAt s = .ok (.print (regByte r))
    · obtain ⟨r, hd⟩ := hp
      exact .inr ⟨r, hd, step_print_out hs hd h⟩
    · exact .inl (step_keeps_out hs h (not_exists.mp hp))
  · rw [step_ended hs] at h
    cases h
    exact .inl rfl

/-! ## Two runs that differ in flags and output only

`Agree` is kept by every operation, since none of them reads the flags or the output; `Related` lifts it to what
two operations answer. The one read is FL.E in the conditional jumps, a hypothesis of `exec_related`. -/

/-- The two states are the same but for the flags and the output stream. -/
structure Agree (s s' : State) : Prop where
  regs : s'.regs = s.regs
  pc : s'.pc = s.pc
  mem : s'.mem = s.mem
  status : s'.status = s.status
  fault : s'.fault = s.fault

namespace Agree

variable {s s' : State}

theorem reg (h : Agree s s') (r : RegIndex) : s'.reg r = s.reg r := by rw [State.reg, h.regs, State.reg]

theorem sp (h : Agree s s') : s'.sp = s.sp := h.reg _

theorem setReg (h : Agree s s') (r : RegIndex) (v : Word) : Agree (s.setReg r v) (s'.setReg r v) :=
  ⟨by simp [h.regs], h.pc, h.mem, h.status, h.fault⟩

theorem storeReg (h : Agree s s') (r : RegIndex) (v : Nat) : Agree (s.storeReg r v) (s'.storeReg r v) :=
  h.setReg r _

theorem setPc (h : Agree s s') (v : Byte) : Agree (s.setPc v) (s'.setPc v) :=
  ⟨h.regs, rfl, h.mem, h.status, h.fault⟩

theorem setMem (h : Agree s s') (m : Memory) : Agree (s.setMem m) (s'.setMem m) :=
  ⟨h.regs, h.pc, rfl, h.status, h.fault⟩

theorem setFlags (h : Agree s s') (f f' : Flags) : Agree (s.setFlags f) (s'.setFlags f') :=
  ⟨h.regs, h.pc, h.mem, h.status, h.fault⟩

theorem emit (h : Agree s s') (v v' : Word) : Agree (s.emit v) (s'.emit v') :=
  ⟨h.regs, h.pc, h.mem, h.status, h.fault⟩

theorem halt (h : Agree s s') : Agree s.halt s'.halt := ⟨h.regs, h.pc, h.mem, rfl, h.fault⟩

theorem raised (h : Agree s s') (kind : FaultKind) (op : Byte) (detail : FaultDetail) :
    Agree (s.raised kind op detail) (s'.raised kind op detail) :=
  ⟨h.regs, h.pc, h.mem, rfl, by simp [h.pc]⟩

theorem opcodeAt_eq (h : Agree s s') : opcodeAt s' = opcodeAt s := by
  rw [opcodeAt, h.mem, h.pc, opcodeAt]

theorem decodeAt_eq (h : Agree s s') : decodeAt s' = decodeAt s := by
  simp only [decodeAt, instructionBytes, h.mem, h.pc]

end Agree

/-- Both answer a next state, and these agree. -/
def Related (r r' : Result) : Prop := ∃ t t', r = .next t ∧ r' = .next t' ∧ Agree t t'

namespace Related

variable {s s' : State}

theorem next {t t' : State} (h : Agree t t') : Related (.next t) (.next t') := ⟨t, t', rfl, rfl, h⟩

theorem raise (h : Agree s s') (kind : FaultKind) (op : Byte) (detail : FaultDetail) :
    Related (raise kind op detail s) (raise kind op detail s') := next (h.raised kind op detail)

theorem withReg (h : Agree s s') {op b : Byte} {k k' : RegIndex → Result} (hk : ∀ r, Related (k r) (k' r)) :
    Related (withReg op b s k) (withReg op b s' k') := by
  by_cases hb : b.toNat < Config.numRegs
  · rw [eq_regByte_of_lt hb, withReg_regByte, withReg_regByte]
    exact hk _
  · rw [withReg_illegal op (Nat.not_lt.mp hb), withReg_illegal op (Nat.not_lt.mp hb)]
    exact next (h.raised ..)

theorem withRegs (h : Agree s s') {op a b : Byte} {k k' : RegIndex → RegIndex → Result}
    (hk : ∀ r q, Related (k r q) (k' r q)) : Related (withRegs op a b s k) (withRegs op a b s' k') :=
  withReg h fun r => withReg h (hk r)

theorem pushByte (h : Agree s s') {op v : Byte} {k k' : State → Result}
    (hk : ∀ {u u'}, Agree u u' → Related (k u) (k' u')) :
    Related (pushByte op v s k) (pushByte op v s' k') := by
  by_cases hs : s.sp = 0
  · rw [pushByte_overflow op v hs, pushByte_overflow op v (h.sp.trans hs)]
    exact next (h.raised ..)
  · rw [pushByte_stores op v hs, pushByte_stores op v (fun he => hs (h.sp.symm.trans he)), h.sp, h.mem]
    exact hk ((h.setReg _ _).setMem _)

theorem popByte (h : Agree s s') {op : Byte} {k k' : Byte → State → Result}
    (hk : ∀ v {u u'}, Agree u u' → Related (k v u) (k' v u')) :
    Related (popByte op s k) (popByte op s' k') := by
  by_cases hs : s.sp.toNat < 0xF4
  · rw [popByte_loads op hs, popByte_loads op (h.sp ▸ hs), h.sp, h.mem]
    exact hk _ (h.setReg _ _)
  · rw [popByte_underflow op (Nat.not_lt.mp hs), popByte_underflow op (h.sp ▸ Nat.not_lt.mp hs), h.sp]
    exact next (h.raised ..)

theorem movePc (h : Agree s s') (op : Byte) (width : Nat) : Related (movePc op width s) (movePc op width s') := by
  by_cases hs : s.pc.toNat + width < 256
  · rw [movePc_fits op hs, movePc_fits op (h.pc ▸ hs), h.pc]
    exact next (h.setPc _)
  · rw [movePc_past op (Nat.not_lt.mp hs), movePc_past op (h.pc ▸ Nat.not_lt.mp hs), h.pc]
    exact next (h.raised ..)

/-- The two conditional jumps agree where they are taken from both states or from neither. -/
theorem jumpIf (h : Agree s s') (op : Byte) {taken taken' : Bool} (ht : taken' = taken) (a : Byte) :
    Related (jumpIf op taken a s) (jumpIf op taken' a s') := by
  subst ht
  refine withReg h fun r => ?_
  cases taken' with
  | true => simpa only [if_true, h.reg] using next (h.setPc (s.reg r))
  | false => exact movePc h op 2

theorem aluBinary (h : Agree s s') (op : Byte) (f : Nat → Nat → Nat) (a b : Byte) :
    Related (aluBinary op f a b s) (aluBinary op f a b s') :=
  withRegs h fun r q => by simpa only [h.reg] using next (h.storeReg r _)

theorem aluUnary (h : Agree s s') (op : Byte) (f : Nat → Nat) (a : Byte) :
    Related (aluUnary op f a s) (aluUnary op f a s') :=
  withReg h fun r => by simpa only [h.reg] using next (h.storeReg r _)

theorem advance (op : Byte) {r r' : Result} (h : Related r r') : Related (advance op r) (advance op r') := by
  obtain ⟨t, t', rfl, rfl, h⟩ := h
  by_cases hr : t.status = .running
  · cases hp : setsPc op with
    | true =>
      rw [advance_setsPc hp, advance_setsPc hp]
      exact next h
    | false =>
      rw [advance_moves hp hr, advance_moves hp (h.status.trans hr)]
      exact movePc h op _
  · rw [advance_ended _ hr, advance_ended _ (h.status ▸ hr)]
    exact next h

end Related

/-- EXECUTE reads neither the flags nor the output, but for FL.E in the conditional jumps (R32, R36). -/
theorem exec_related {s s' : State} (h : Agree s s') {i : Instr}
    (he : ∀ a, i ∈ [.jumpIfEqual a, .jumpIfNotEqual a] → s'.flags.equal = s.flags.equal) :
    Related (exec i s) (exec i s') := by
  cases i <;> simp only [exec]
  case halt => exact .next h.halt
  case ldi a imm => exact .withReg h fun r => .next (h.setReg r imm)
  case print a => exact .withReg h fun r => .next (h.emit _ _)
  case push a =>
    refine .withReg h fun r => ?_
    rw [h.reg]
    exact .pushByte h .next
  case pop a => exact .withReg h fun r => .popByte h fun v _ _ hu => .next (hu.setReg r v)
  case call a =>
    refine .withReg h fun r => ?_
    rw [h.pc, h.reg]
    split
    · exact .raise h ..
    · exact .pushByte h fun hu => .next (hu.setPc _)
  case ret => exact .popByte h fun v _ _ hu => .next (hu.setPc v)
  case compare a b => exact .withRegs h fun r q => .next (h.setFlags _ _)
  case jump a =>
    refine .withReg h fun r => ?_
    rw [h.reg]
    exact .next (h.setPc _)
  case jumpIfEqual a => exact .jumpIf h _ (he a (by simp)) a
  case jumpIfNotEqual a => exact .jumpIf h _ (congrArg _ (he a (by simp))) a
  case not a => exact .aluUnary h ..
  case modulo a b =>
    refine .withRegs h fun r q => ?_
    rw [h.reg, h.reg]
    split
    · exact .raise h ..
    · exact .next (h.storeReg r _)
  all_goals exact .aluBinary h ..

theorem raiseDecode_related {s s' : State} (h : Agree s s') (e : DecodeError) :
    Related (raiseDecode e s) (raiseDecode e s') := by
  cases e with
  | unsupported op => rw [raiseDecode, raiseDecode, h.opcodeAt_eq]; exact .raise h ..
  | missingByte k => rw [raiseDecode, raiseDecode, h.opcodeAt_eq, h.pc]; exact .raise h ..

/-- A running step reads neither the flags nor the output, but for FL.E in the conditional jumps. -/
theorem step_related {s s' : State} (h : Agree s s') (hs : s.status = .running)
    (he : ∀ a i, decodeAt s = .ok i → i ∈ [.jumpIfEqual a, .jumpIfNotEqual a] →
      s'.flags.equal = s.flags.equal) : Related (step s) (step s') := by
  have hs' : s'.status = .running := h.status.trans hs
  cases hd : decodeAt s with
  | error e =>
    rw [step_undecoded hs hd, step_undecoded hs' (h.decodeAt_eq.trans hd)]
    exact raiseDecode_related h e
  | ok i =>
    rw [step_decoded hs hd, step_decoded hs' (h.decodeAt_eq.trans hd), h.opcodeAt_eq]
    exact .advance _ (exec_related h fun a hi => he a i hd hi)

/-- Settles O28: the two steps agree but for flags and output, the output is PRINT's from either start, and the
flags are COMPARE's or the start's own. -/
theorem flagsAreReadOnlyByConditionalJumps : Obligations.FlagsAreReadOnlyByConditionalJumps := by
  intro s t t' f hs hread h h'
  have ha : Agree s (s.setFlags f) := ⟨rfl, rfl, rfl, rfl, rfl⟩
  have hcond : ∀ a i, decodeAt s = .ok i → i ∈ [.jumpIfEqual a, .jumpIfNotEqual a] →
      (s.setFlags f).flags.equal = s.flags.equal := by
    intro a i hd hi
    obtain ⟨rest, he⟩ := encode_of_decodeAt hd
    refine hread.resolve_right fun hop => hop ?_
    change opcodeAt s ∈ _
    simp only [List.mem_cons, List.not_mem_nil, or_false] at hi
    rcases hi with rfl | rfl <;> rw [← (List.cons.inj he).1] <;> decide
  obtain ⟨u, u', hu, hu', hagree⟩ := step_related ha hs hcond
  cases h.symm.trans hu
  cases h'.symm.trans hu'
  have hout : t'.out = t.out := by
    by_cases hp : ∃ r, decodeAt s = .ok (.print (regByte r))
    · obtain ⟨r, hd⟩ := hp
      rw [step_print_out hs hd h, step_print_out (s := s.setFlags f) hs hd h']
      rfl
    · have hn := not_exists.mp hp
      rw [step_keeps_out hs h hn, step_keeps_out (s := s.setFlags f) hs h' hn]
      rfl
  refine ⟨?_, ?_, ?_⟩
  · exact State.ext_fields hagree.reg hagree.pc rfl hagree.mem hagree.status hagree.fault hout
  · rintro ⟨r, q, hd⟩
    rw [step_compare_flags hs hd h, step_compare_flags (s := s.setFlags f) hs hd h']
    rfl
  · intro hn
    exact step_keeps_flags (s := s.setFlags f) hs h' fun r q hd => hn ⟨r, q, hd⟩

/-- Settles O30: the two steps agree but for flags and output, and what PRINT appends is the same register. -/
theorem outputIsNeverRead : Obligations.OutputIsNeverRead := by
  intro s t o h
  by_cases hs : s.status = .running
  · have ha : Agree s { s with out := o } := ⟨rfl, rfl, rfl, rfl, rfl⟩
    obtain ⟨u, t', hu, h', hagree⟩ := step_related ha hs fun _ _ _ _ => rfl
    cases h.symm.trans hu
    have hflags : t'.flags = t.flags := by
      by_cases hc : ∃ r q, decodeAt s = .ok (.compare (regByte r) (regByte q))
      · obtain ⟨r, q, hd⟩ := hc
        rw [step_compare_flags hs hd h, step_compare_flags (s := { s with out := o }) hs hd h']
        rfl
      · have hn r q hd := hc ⟨r, q, hd⟩
        rw [step_keeps_flags hs h hn, step_keeps_flags (s := { s with out := o }) hs h' hn]
    have hout : ∃ added, t.out = s.out ++ added ∧ t'.out = o ++ added := by
      by_cases hp : ∃ r, decodeAt s = .ok (.print (regByte r))
      · obtain ⟨r, hd⟩ := hp
        exact ⟨_, step_print_out hs hd h, step_print_out (s := { s with out := o }) hs hd h'⟩
      · have hn := not_exists.mp hp
        refine ⟨[], ?_, ?_⟩
        · rw [step_keeps_out hs h hn, List.append_nil]
        · rw [step_keeps_out (s := { s with out := o }) hs h' hn, List.append_nil]
    obtain ⟨added, ht, ht'⟩ := hout
    refine ⟨added, ht, h'.trans (congrArg _ ?_)⟩
    exact State.ext_fields hagree.reg hagree.pc hflags hagree.mem hagree.status hagree.fault ht'
  · rw [step_ended hs] at h
    cases h
    exact ⟨[], (List.append_nil _).symm, by rw [step_ended (s := { s with out := o }) hs, List.append_nil]⟩

end Sys2Proof.Machine

/-! Registers, and the frames of the instructions: what EXECUTE of each leaves unchanged (R23, R24, R54, R65). -/

namespace Sys2Proof.Machine

/-- Settles O34: a register reads what was last stored to it, and the others read as before. -/
theorem registerHoldsLastWrite : Obligations.RegisterHoldsLastWrite := by
  intro s i j v
  refine ⟨?_, fun hij => s.reg_setReg_ne _ hij⟩
  rw [State.reg_storeReg_self, BitVec.toNat_ofNat]

/-! ## The instructions that write one register (R120, R160) -/

/-- LDI and the register-writing ALU operations on a register A, with `b` where there is a second operand byte. -/
def registerWriters (a b : Byte) : List Instr :=
  [.ldi a b, .add a b, .multiply a b, .modulo a b, .and a b, .or a b, .xor a b, .not a,
    .shiftLeft a b, .shiftRight a b]

theorem head_regOperands_of_mem_registerWriters (a b : Byte) :
    ∀ i ∈ registerWriters a b, i.regOperands.head? = some a := by
  simp [registerWriters, Instr.regOperands]

/-- No instruction of one register alone is HALT, PRINT, COMPARE or a jump. -/
theorem not_mem_registerWriters (a b c d : Byte) :
    ∀ i ∈ [.halt, .print a, .compare a b, .jump a, .jumpIfEqual a, .jumpIfNotEqual a],
      i ∉ registerWriters c d := by
  simp [registerWriters]

/-- EXECUTE of a register writer raised, or it wrote the register its operand A names and nothing else. -/
theorem exec_registerWriter {i : Instr} {a b : Byte} {s t : State} (hi : i ∈ registerWriters a b)
    (h : exec i s = .next t) :
    (∃ kind op detail, t = s.raised kind op detail) ∨ ∃ r v, a = regByte r ∧ t = s.setReg r v := by
  cases exec_effect h with
  | raised => exact .inl ⟨_, _, _, rfl⟩
  | register r c v hr =>
    refine .inr ⟨r, v, Option.some.inj ?_, rfl⟩
    rw [← head_regOperands_of_mem_registerWriters a b i hi]
    exact head_regOperands_of_mem_registerWriters (regByte r) c i hr
  | jump r v hj =>
    refine absurd hi (not_mem_registerWriters (regByte r) 0 a b i ?_)
    exact List.mem_cons_of_mem _ (List.mem_cons_of_mem _ (List.mem_cons_of_mem _ hj))
  | _ => simp [registerWriters] at hi

/-- Settles O49: a raise keeps everything but status and fault, and a write reaches the named register alone. -/
theorem registerWritersFrame : Obligations.RegisterWritersFrame := by
  intro i a b s t hi h
  rcases exec_registerWriter hi h with ⟨kind, op, detail, rfl⟩ | ⟨r, v, rfl, rfl⟩
  · exact ⟨fun _ _ => rfl, rfl, rfl, fun _ => rfl, rfl, .inr ⟨rfl, fun _ => rfl⟩⟩
  · refine ⟨fun q hq => s.reg_setReg_ne v fun hrq => hq (by rw [hrq]), rfl, rfl, fun _ => rfl, rfl, ?_⟩
    exact .inl ⟨rfl, rfl⟩

/-! ## The instructions that write no register (R108, R121, R142 to R144, R164) -/

/-- Settles O50: one case for each effect that HALT, PRINT, COMPARE and the jumps can have. -/
theorem nonWritersFrame : Obligations.NonWritersFrame := by
  intro i a b s t hi h
  cases exec_effect h with
  | raised =>
    exact ⟨fun _ => rfl, fun _ => rfl, fun _ => rfl, fun _ => rfl, fun _ => rfl, .inr (.inr ⟨rfl, rfl, rfl, rfl⟩)⟩
  | halt =>
    exact ⟨fun _ => rfl, fun _ => rfl, fun _ => rfl, fun _ => rfl, fun _ => rfl, .inr (.inl ⟨rfl, rfl, rfl⟩)⟩
  | register r c v hr => exact absurd hr (not_mem_registerWriters a b (regByte r) c i hi)
  | print r =>
    have ha : regByte r = a := by simpa using hi
    refine ⟨fun _ => rfl, fun _ => rfl, fun _ => rfl, fun hn => ?_, fun _ => rfl, .inl ⟨rfl, rfl⟩⟩
    exact absurd (congrArg Instr.print ha) hn
  | compare r q =>
    have hab : regByte r = a ∧ regByte q = b := by simpa using hi
    refine ⟨fun _ => rfl, fun _ => rfl, fun hn => ?_, fun _ => rfl, fun _ => rfl, .inl ⟨rfl, rfl⟩⟩
    exact absurd (congrArg₂ Instr.compare hab.1 hab.2) hn
  | jump r v hj =>
    refine ⟨fun _ => rfl, fun _ => rfl, fun _ => rfl, fun _ => rfl, fun hp => ?_, .inl ⟨rfl, rfl⟩⟩
    simp only [List.mem_cons, List.not_mem_nil, or_false] at hj
    rcases hj with rfl | rfl | rfl <;> simp at hp
  | push | pop | call | ret => simp at hi

/-! ## The stack instructions (R65, R130, R131, R140, R141) -/

/-- EXECUTE of PUSH or CALL raised, or it stored a byte below SP and moved SP there; only CALL moved the pc. -/
theorem exec_pushOrCall {i : Instr} {a : Byte} {s t : State} (hi : i ∈ [.push a, .call a])
    (h : exec i s = .next t) :
    (∃ kind op detail, t = s.raised kind op detail) ∨
    s.sp ≠ 0 ∧ ∃ v p, (i = .push a → p = s.pc) ∧
      t = ((s.setReg Config.spIndex (s.sp - 1)).setMem (Memory.write s.mem (s.sp - 1).toNat v)).setPc p := by
  simp only [List.mem_cons, List.not_mem_nil, or_false] at hi
  rcases hi with rfl | rfl
  · cases exec_effect h with
    | raised => exact .inl ⟨_, _, _, rfl⟩
    | push r hs => exact .inr ⟨hs, _, _, fun _ => rfl, rfl⟩
    | register _ _ _ hm | jump _ _ hm => simp at hm
  · cases exec_effect h with
    | raised => exact .inl ⟨_, _, _, rfl⟩
    | call r _ hs => exact .inr ⟨hs, _, _, nofun, rfl⟩
    | register _ _ _ hm | jump _ _ hm => simp at hm

/-- Settles O51: a raise keeps registers, pc and memory; a store changes SP and the cell at the decremented SP. -/
theorem pushAndCallFrame : Obligations.PushAndCallFrame := by
  intro i a s t hi h
  rcases exec_pushOrCall hi h with ⟨kind, op, detail, rfl⟩ | ⟨hs, v, p, hp, rfl⟩
  · exact ⟨fun _ _ => rfl, rfl, rfl, fun _ => rfl, fun _ _ => rfl, .inr ⟨rfl, rfl, rfl, rfl⟩⟩
  · refine ⟨fun r hr => s.reg_setReg_ne _ hr.symm, rfl, rfl, hp, fun c hc => ?_, .inl ⟨rfl, rfl⟩⟩
    rw [push_address hs] at hc
    exact Memory.read_write_ne s.mem v hc

/-- EXECUTE of POP or RETURN raised, or it moved SP up, and POP then wrote its register and RETURN the pc. -/
theorem exec_popOrReturn {i : Instr} {a : Byte} {s t : State} (hi : i ∈ [.pop a, .ret])
    (h : exec i s = .next t) :
    (∃ kind op detail, t = s.raised kind op detail) ∨
    (∃ r v, i = .pop a ∧ a = regByte r ∧ t = (s.setReg Config.spIndex (s.sp + 1)).setReg r v) ∨
    ∃ p, i = .ret ∧ t = (s.setReg Config.spIndex (s.sp + 1)).setPc p := by
  simp only [List.mem_cons, List.not_mem_nil, or_false] at hi
  rcases hi with rfl | rfl
  · cases exec_effect h with
    | raised => exact .inl ⟨_, _, _, rfl⟩
    | pop r _ => exact .inr (.inl ⟨r, _, rfl, rfl, rfl⟩)
    | register _ _ _ hm | jump _ _ hm => simp at hm
  · cases exec_effect h with
    | raised => exact .inl ⟨_, _, _, rfl⟩
    | ret _ => exact .inr (.inr ⟨_, rfl, rfl⟩)
    | register _ _ _ hm | jump _ _ hm => simp at hm

/-- Settles O52: a raise keeps registers and pc; otherwise SP and POP's register, or SP and the pc, alone change. -/
theorem popAndReturnFrame : Obligations.PopAndReturnFrame := by
  intro i a s t hi h
  rcases exec_popOrReturn hi h with ⟨kind, op, detail, rfl⟩ | ⟨r, v, rfl, rfl, rfl⟩ | ⟨p, rfl, rfl⟩
  · exact ⟨fun _ _ _ => rfl, rfl, rfl, fun _ => rfl, fun _ => rfl, .inr ⟨rfl, fun _ => rfl, rfl⟩⟩
  · refine ⟨fun q hq hqa => ?_, rfl, rfl, fun _ => rfl, fun _ => rfl, .inl ⟨rfl, rfl⟩⟩
    have hrq : r ≠ q := fun he => hqa rfl (by rw [he])
    rw [State.reg_setReg_ne _ v hrq, State.reg_setReg_ne _ _ hq.symm]
  · exact ⟨fun q hq _ => s.reg_setReg_ne _ hq.symm, rfl, rfl, nofun, fun _ => rfl, .inl ⟨rfl, rfl⟩⟩

end Sys2Proof.Machine

/-! Memory: the two accesses, the image a run starts from, who writes, and the fetch of a byte just stored
(20_memory.md R51 to R54, R63; 70_reset_and_hazards.md R230, R232, R235). -/

namespace Sys2Proof.Machine

/-! ## The two accesses (R52, R53) -/

theorem memRead_inside (op : Byte) {a : Nat} (h : a < 256) (s : State) (k : Byte → Result) :
    memRead op a s k = k (Memory.read s.mem a) := by
  rw [memRead, if_pos h]

theorem memRead_outside (op : Byte) {a : Nat} (h : 256 ≤ a) (s : State) (k : Byte → Result) :
    memRead op a s k = .next (s.raised .outOfRange op (.address a)) := by
  rw [memRead, if_neg (Nat.not_lt.mpr h), raise_eq]

theorem memWrite_inside (op : Byte) {a : Nat} (h : a < 256) (v : Byte) (s : State) (k : State → Result) :
    memWrite op a v s k = k (s.setMem (Memory.write s.mem a v)) := by
  rw [memWrite, if_pos h]

theorem memWrite_outside (op : Byte) {a : Nat} (h : 256 ≤ a) (v : Byte) (s : State) (k : State → Result) :
    memWrite op a v s k = .next (s.raised .outOfRange op (.address a)) := by
  rw [memWrite, if_neg (Nat.not_lt.mpr h), raise_eq]

/-- Settles O32: the two sides of the bound 256. -/
theorem memReadRule : Obligations.MemReadRule :=
  fun op _ s k => ⟨fun ha => memRead_inside op ha s k, fun ha => memRead_outside op ha s k⟩

/-- Settles O33: the two sides of the bound 256; inside it, the laws of `Memory.write`. -/
theorem memWriteRule : Obligations.MemWriteRule := by
  intro op a v s k hm
  refine ⟨fun ha => ⟨Memory.write s.mem a v, memWrite_inside op ha v s k, ?_, ?_, ?_⟩,
    fun ha => memWrite_outside op ha v s k⟩
  · exact Memory.wf_write hm v ha
  · exact Memory.read_write_self hm a v
  · exact fun c hc => Memory.read_write_ne s.mem v hc

/-! ## The image a run starts from (R51, R230, R232) -/

theorem Memory.read_writeBytes_below (m : Memory) {a c : Nat} (bs : List Byte) (h : c < a) :
    Memory.read (Memory.writeBytes m a bs) c = Memory.read m c := by
  induction bs generalizing m a with
  | nil => rfl
  | cons b bs ih =>
    rw [Memory.writeBytes, ih _ (by omega)]
    split
    · exact Memory.read_write_ne m b (by omega)
    · rfl

/-- From the first address up, a cell holds its byte of the list, or what it held where the list has ended. -/
theorem Memory.read_writeBytes {m : Memory} (hm : Memory.wf m = true) {a k : Nat} (bs : List Byte)
    (h : a + k < 256) :
    Memory.read (Memory.writeBytes m a bs) (a + k) = bs[k]?.getD (Memory.read m (a + k)) := by
  induction bs generalizing m a k with
  | nil => rfl
  | cons b bs ih =>
    have ha : a < 256 := by omega
    rw [Memory.writeBytes, if_pos ha]
    cases k with
    | zero =>
      rw [Memory.read_writeBytes_below _ _ (by omega), Nat.add_zero, Memory.read_write_self hm]
      rfl
    | succ k =>
      rw [show a + (k + 1) = a + 1 + k by omega, ih (Memory.wf_write hm b ha) (by omega),
        Memory.read_write_ne m b (by omega), List.getElem?_cons_succ]

/-- The host accepts an image of at most 256 byte values, and starts it in one state. -/
theorem loadImage_eq_some_iff {image : List Nat} {s : State} :
    loadImage image = some s ↔ (image.length ≤ 256 ∧ ∀ v ∈ image, v < 256) ∧
      State.reset.setMem (Memory.writeBytes State.reset.mem 0 (image.map (BitVec.ofNat 8))) = s := by
  simp only [loadImage, Option.ite_none_right_eq_some, Bool.and_eq_true, decide_eq_true_eq, List.all_eq_true,
    Option.some.injEq]

/-- A byte value survives the conversion to a byte; past the list's end both sides are zero. -/
theorem toNat_getElem?_map_ofNat {image : List Nat} (h : ∀ v ∈ image, v < 256) (k : Nat) :
    ((image.map (BitVec.ofNat 8))[k]?.getD 0).toNat = image[k]?.getD 0 := by
  rw [List.getElem?_map]
  cases hk : image[k]? with
  | none => rfl
  | some v => exact Nat.mod_eq_of_lt (h v (List.mem_of_getElem? hk))

/-- Settles O19: `loadImage`'s condition, and the bytes that `writeBytes` leaves in the empty memory of reset. -/
theorem loadedImageIsInMemory : Obligations.LoadedImageIsInMemory := by
  intro image
  refine ⟨by simp only [loadImage_eq_some_iff, exists_and_left, exists_eq', and_true], fun s h => ?_⟩
  obtain ⟨⟨-, hv⟩, rfl⟩ := loadImage_eq_some_iff.mp h
  refine ⟨fun k hk => ?_, rfl⟩
  have hread := Memory.read_writeBytes (m := State.reset.mem) (a := 0) (k := k) Memory.wf_nil
    (image.map (BitVec.ofNat 8)) (by omega)
  rw [Nat.zero_add] at hread
  rw [State.setMem_mem, hread]
  exact toNat_getElem?_map_ofNat hv k

/-! ## Who writes memory (R54, R65) -/

/-- EXECUTE leaves memory alone, or the instruction is PUSH or CALL and it wrote the cell below SP. -/
theorem exec_mem {i : Instr} {s t : State} (h : exec i s = .next t) :
    t.mem = s.mem ∨
    (∃ a, i ∈ [.push a, .call a]) ∧ ∃ v, t.mem = Memory.write s.mem (s.sp - 1).toNat v := by
  cases exec_effect h with
  | push r | call r => exact .inr ⟨⟨regByte r, by simp⟩, _, rfl⟩
  | _ => exact .inl rfl

theorem encode_head?_of_decodeAt {s : State} {i : Instr} (h : decodeAt s = .ok i) :
    (encode i).head? = some (opcodeAt s) :=
  List.head?_eq_some_iff.mpr (encode_of_decodeAt h)

/-- A step leaves memory alone, or it ran a PUSH or a CALL, which wrote the cell below SP. -/
theorem step_mem {s t : State} (hs : s.status = .running) (h : step s = .next t) :
    t.mem = s.mem ∨
    opcodeAt s ∈ [Opcode.push, Opcode.call] ∧ ∃ v, t.mem = Memory.write s.mem (s.sp - 1).toNat v := by
  cases hd : decodeAt s with
  | error e => exact .inl (step_sameData_of_error hs hd h).mem
  | ok i =>
    obtain ⟨u, hu, hut⟩ := step_sameData hs hd h
    rw [hut.mem]
    refine (exec_mem hu).imp_right fun ⟨⟨a, hi⟩, hw⟩ => ⟨?_, hw⟩
    have hop := encode_head?_of_decodeAt hd
    simp only [List.mem_cons, List.not_mem_nil, or_false] at hi ⊢
    rcases hi with rfl | rfl
    · exact .inl (Option.some.inj hop).symm
    · exact .inr (Option.some.inj hop).symm

/-- Settles O31: the two cases of `step_mem`. -/
theorem onlyPushAndCallWriteMemory : Obligations.OnlyPushAndCallWriteMemory := by
  intro s t hs h
  rcases step_mem hs h with hm | ⟨hop, v, hm⟩
  · exact ⟨fun _ => hm, fun a _ => by rw [hm]⟩
  · exact ⟨fun hn => absurd hop hn, fun a ha => by rw [hm]; exact Memory.read_write_ne s.mem v ha⟩

/-! ## A byte just stored is fetched (R63, R235) -/

theorem ofNat_toNat_add_two (v : Byte) : BitVec.ofNat 8 (v.toNat + 2) = v + 2 := by
  rw [BitVec.ofNat_add, BitVec.ofNat_toNat, BitVec.setWidth_eq]
  rfl

theorem exec_push_stores {s : State} (hsp : s.sp ≠ 0) (r : RegIndex) : exec (.push (regByte r)) s =
    .next ((s.setReg Config.spIndex (s.sp - 1)).setMem (Memory.write s.mem (s.sp - 1).toNat (s.reg r))) := by
  rw [exec, execPush, withReg_regByte, pushByte_stores _ _ hsp]

theorem exec_call_stores {s : State} (hsp : s.sp ≠ 0) (hpc : s.pc.toNat + 2 < 256) (r : RegIndex) :
    exec (.call (regByte r)) s =
    .next (((s.setReg Config.spIndex (s.sp - 1)).setMem
      (Memory.write s.mem (s.sp - 1).toNat (s.pc + 2))).setPc (s.reg r)) := by
  rw [exec, execCall, withReg_regByte, if_neg (Nat.not_le.mpr hpc), pushByte_stores _ _ hsp,
    ofNat_toNat_add_two]

/-- A PUSH away from the end of memory stores the register's value and runs on. -/
theorem step_push_stores {s : State} {r : RegIndex} (hs : s.status = .running)
    (hd : decodeAt s = .ok (.push (regByte r))) (hsp : s.sp ≠ 0) (hpc : s.pc.toNat + 2 < 256) : step s =
    .next (((s.setReg Config.spIndex (s.sp - 1)).setMem
      (Memory.write s.mem (s.sp - 1).toNat (s.reg r))).setPc (BitVec.ofNat 8 (s.pc.toNat + 2))) := by
  have hop : Opcode.push = opcodeAt s := Option.some.inj (encode_head?_of_decodeAt hd)
  rw [step_decoded hs hd, exec_push_stores hsp, ← hop, advance_moves rfl]
  · exact movePc_fits _ hpc
  · exact hs

/-- A CALL away from the end of memory stores the return address and runs on. -/
theorem step_call_stores {s : State} {r : RegIndex} (hs : s.status = .running)
    (hd : decodeAt s = .ok (.call (regByte r))) (hsp : s.sp ≠ 0) (hpc : s.pc.toNat + 2 < 256) : step s =
    .next (((s.setReg Config.spIndex (s.sp - 1)).setMem
      (Memory.write s.mem (s.sp - 1).toNat (s.pc + 2))).setPc (s.reg r)) := by
  have hop : Opcode.call = opcodeAt s := Option.some.inj (encode_head?_of_decodeAt hd)
  rw [step_decoded hs hd, exec_call_stores hsp hpc, ← hop, advance_setsPc rfl]

/-- FETCH of the HALT byte halts, wherever it lies (R108). -/
theorem step_halt {s : State} (hs : s.status = .running) (hop : opcodeAt s = Opcode.halt) :
    step s = .next s.halt := by
  have hf : formatOf (opcodeAt s) = some (.z .halt) := by rw [hop, formatOf_halt]
  have hd : decodeAt s = .ok .halt := decodeAt_ok hf s.pc.isLt
  rw [step_decoded hs hd, exec, execHalt, advance_ended _ (by simp)]

/-- Settles O55: the byte is in the cell below SP after the step, and the fetch reads that cell. -/
theorem pushedCodeIsFetched : Obligations.PushedCodeIsFetched := by
  intro s t r b hm hs hd hsp hpc h
  have hstored : t.status = .running ∧ t.mem = Memory.write s.mem (s.sp - 1).toNat b := by
    rcases hd with ⟨hd, rfl⟩ | ⟨hd, rfl⟩
    · rw [step_push_stores hs hd hsp hpc] at h
      cases h
      exact ⟨hs, rfl⟩
    · rw [step_call_stores hs hd hsp hpc] at h
      cases h
      exact ⟨hs, rfl⟩
  obtain ⟨ht, htm⟩ := hstored
  refine ⟨ht, fun u k hu hk haddr => ?_⟩
  change u.pc.toNat + k = (s.sp - 1).toNat at haddr
  have hread : Memory.read u.mem (u.pc.toNat + k) = b := by
    rw [hu, htm, haddr, Memory.read_write_self hm]
  refine ⟨?_, fun hk0 hb hus => step_halt hus ?_⟩
  · rw [instructionBytes_getElem? hk (haddr ▸ (s.sp - 1).isLt), hread]
  · subst hk0
    exact hread.trans hb

end Sys2Proof.Machine

/-! PROOFS of the statements about the encoding (30_encoding.md): the bytes of an instruction are an opcode of the
table and the operand bytes that the opcode's format takes, and the decoder reads exactly these. -/

namespace Sys2Proof.Machine

/-! ## Decode after encode (R70, R75, R76) -/

/-- Settles O1: an instruction's opcode looks up its own row, so one case for each of the four formats. -/
theorem decodeOfEncodeIsTheInstruction : Obligations.DecodeOfEncodeIsTheInstruction := by
  intro i rest
  cases i with
  | halt | ret => exact decode_z rfl rest
  | print a | push a | pop a | call a | jump a | jumpIfEqual a | jumpIfNotEqual a | not a =>
    exact decode_r rfl a rest
  | ldi a imm => exact decode_ri rfl a imm rest
  | compare a b | add a b | multiply a b | and a b | or a b | xor a b | shiftLeft a b | shiftRight a b
  | modulo a b => exact decode_rr rfl a b rest

/-! ## Encode after decode (R70, R76) -/

theorem operands_le_two (f : Format) : f.operands ≤ 2 := by
  cases f <;> simp [Format.operands]

/-- A list that is long enough for the format begins with its operand bytes. -/
theorem exists_operandBytes {f : Format} {bytes : List Byte} (h : f.operands ≤ bytes.length) :
    ∃ a b rest, bytes = [a, b].take f.operands ++ rest := by
  match f, bytes, h with
  | .z _, rest, _ => exact ⟨0, 0, rest, rfl⟩
  | .r _, a :: rest, _ => exact ⟨a, 0, rest, rfl⟩
  | .rr _, a :: b :: rest, _ => exact ⟨a, b, rest, rfl⟩
  | .ri _, a :: b :: rest, _ => exact ⟨a, b, rest, rfl⟩

/-- An opcode of the table and its operand bytes are decoded to what the format makes of them. -/
theorem decode_operandBytes {op : Byte} {f : Format} (h : formatOf op = some f) (a b : Byte) (rest : List Byte) :
    decode (op :: ([a, b].take f.operands ++ rest)) = .ok (buildFrom f a b, rest) := by
  cases f with
  | z i => exact decode_z h rest
  | r mk => exact decode_r h a rest
  | rr mk => exact decode_rr h a b rest
  | ri mk => exact decode_ri h a b rest

/-- Bytes that decode are an opcode of the table and its operand bytes. -/
theorem decode_ok_cases {bytes rest : List Byte} {i : Instr} (h : decode bytes = .ok (i, rest)) :
    ∃ op f a b, formatOf op = some f ∧ bytes = op :: ([a, b].take f.operands ++ rest) ∧ i = buildFrom f a b := by
  cases bytes with
  | nil => cases h
  | cons op bytes =>
    cases hf : formatOf op with
    | none =>
      rw [decode_unsupported hf] at h
      cases h
    | some f =>
      by_cases hl : bytes.length < f.operands
      · rw [decode_short hf hl] at h
        cases h
      · obtain ⟨a, b, rest', rfl⟩ := exists_operandBytes (Nat.not_lt.mp hl)
        rw [decode_operandBytes hf] at h
        cases h
        exact ⟨op, f, a, b, hf, rfl, rfl⟩

/-- In every row the encoding of the instruction the format makes is the opcode and the format's operand bytes. -/
theorem opcodeTable_encode_buildFrom (a b : Byte) :
    ∀ row ∈ opcodeTable, encode (buildFrom row.2 a b) = row.1 :: [a, b].take row.2.operands := by
  simp [opcodeTable, buildFrom, encode, Format.operands]

/-- Settles O2: the bytes that decode are an opcode and its operand bytes, and the table's row encodes to these. -/
theorem decodedBytesAreTheEncoding : Obligations.DecodedBytesAreTheEncoding := by
  intro bytes i rest h
  obtain ⟨op, f, a, b, hf, rfl, rfl⟩ := decode_ok_cases h
  rw [opcodeTable_encode_buildFrom a b (op, f) (formatOf_mem hf), List.cons_append]

/-! ## Decoding from memory (R77, R102 to R104) -/

theorem encode_length_le_three (i : Instr) : (encode i).length ≤ 3 := by
  obtain ⟨op, rest, f, he, -, hl⟩ := encode_format i
  rw [he, List.length_cons, hl]
  exact Nat.succ_le_succ (operands_le_two f)

/-- An instruction that lies in memory at pc begins the bytes that the decoder is handed. -/
theorem encode_prefix_instructionBytes {s : State} {i : Instr} (hl : s.pc.toNat + (encode i).length ≤ 256)
    (hb : ∀ k b, (encode i)[k]? = some b → Memory.read s.mem (s.pc.toNat + k) = b) :
    encode i <+: instructionBytes s := by
  have h3 := encode_length_le_three i
  refine List.prefix_iff_getElem?.mpr fun k hk => ?_
  rw [instructionBytes_getElem? (by omega) (by omega), hb k _ (List.getElem?_eq_getElem hk)]

/-- Settles O8: the bytes handed to the decoder are the encoding and what follows, and O1 decodes these. -/
theorem instructionInMemoryIsDecoded : Obligations.InstructionInMemoryIsDecoded := by
  intro s i hl hb
  obtain ⟨rest, hrest⟩ := encode_prefix_instructionBytes hl hb
  exact decodeAt_eq_of_decode (hrest ▸ decodeOfEncodeIsTheInstruction i rest)

/-- Settles O17: DECODE's definition names pc and memory alone, and `decodeAt_ok` asks nothing of the operands. -/
theorem decodingReadsOnlyPcAndMemory : Obligations.DecodingReadsOnlyPcAndMemory := by
  refine ⟨fun s s' hpc hmem => by simp only [decodeAt, instructionBytes, hpc, hmem], fun s hsome hl => ?_⟩
  obtain ⟨f, hf⟩ := Option.isSome_iff_exists.mp hsome
  rw [operandCount_eq hf] at hl
  exact ⟨_, decodeAt_ok hf hl⟩

/-! ## Illegal opcodes (R80, R202) -/

/-- EXECUTE never raises UnsupportedInstruction. -/
theorem Cause.kind_ne_unsupported {i : Instr} {s : State} {kind : FaultKind} {detail : FaultDetail}
    (h : Cause i s kind detail) : kind ≠ .unsupportedInstruction := by
  cases h <;> nofun

/-- The fault that EXECUTE leaves where there was none has one of its causes. -/
theorem exec_fault_cause {i : Instr} {s t : State} {r : FaultRecord} (h : exec i s = .next t)
    (hs : s.fault = none) (hr : t.fault = some r) : Cause i s r.kind r.detail := by
  cases exec_effect h with
  | raised _ hc =>
    cases hr
    exact hc
  | _ => exact absurd (hs.symm.trans hr) nofun

/-- Settles O10: DECODE raises it for such an opcode; every other fault, of DECODE, EXECUTE or ADVANCE, is of
another kind. -/
theorem unsupportedInstructionExactlyForIllegalOpcodes :
    Obligations.UnsupportedInstructionExactlyForIllegalOpcodes := by
  refine fun s hs => ⟨fun hf => step_undecoded hs (decodeAt_unsupported hf), fun hinv t r h hr hkind => ?_⟩
  have exec_kind {i : Instr} {u : State} (hu : exec i s = .next u) (hur : u.fault = some r) : False :=
    (exec_fault_cause hu (hinv.fault_none hs) hur).kind_ne_unsupported hkind
  rcases step_cases hs h with ⟨hf, -⟩ | ⟨f, -, -, rfl⟩ | ⟨i, f, u, -, -, -, -, hu, ht⟩
  · exact hf
  · cases hr
    cases hkind
  · rcases ht with ⟨-, rfl⟩ | ⟨-, -, rfl⟩ | ⟨-, -, -, rfl⟩ | ⟨-, -, -, rfl⟩
    · exact (exec_kind hu hr).elim
    · exact (exec_kind hu hr).elim
    · exact (exec_kind hu hr).elim
    · cases hr
      cases hkind

/-! ## The opcode bytes (R71 to R73, R75, R80) -/

/-- A byte has a format where it is the opcode of a row. -/
theorem lookupOpcode_isSome (op : Byte) (rows : List (Byte × Format)) :
    (lookupOpcode op rows).isSome = (rows.map Prod.fst).contains op := by
  induction rows with
  | nil => rfl
  | cons row rows ih =>
    obtain ⟨o, f⟩ := row
    by_cases h : op = o <;> simp [lookupOpcode, h, ih]

/-- Settles O4: the lookup finds the opcodes of the rows alone, and these are the 20 values. -/
theorem theOpcodesAreThese : Obligations.TheOpcodesAreThese := by
  refine ⟨by decide, rfl, fun op => ?_⟩
  change _ = ((opcodeTable.map Prod.fst).map BitVec.toNat).contains op.toNat
  rw [formatOf, lookupOpcode_isSome, Bool.eq_iff_iff, List.contains_iff_mem, List.contains_iff_mem,
    List.mem_map_of_injective fun _ _ => BitVec.eq_of_toNat_eq]

theorem operandCount_eq_div (op : Byte) : operandCount op = op.toNat / 64 := by
  rw [operandCount, BitVec.extractLsb'_toNat, Nat.shiftRight_eq_div_pow]
  exact Nat.mod_eq_of_lt (by omega)

theorem opcodeTable_isAlu : ∀ row ∈ opcodeTable, isAlu row.1 = true ↔
    row.1.toNat ∈ [0xA0, 0xA2, 0xA4, 0xA7, 0xA8, 0xAA, 0xAB, 0x69, 0xAC, 0xAD] := by decide

theorem opcodeTable_setsPc : ∀ row ∈ opcodeTable, setsPc row.1 = true ↔
    row.1.toNat ∈ [0x50, 0x11, 0x54, 0x55, 0x56] := by decide

/-- Settles O5: bits 7:6 are the format's operand count, at most 2, so the byte is below 3 * 64; the other two bits
are read off the 20 rows. -/
theorem opcodeBitsSayCountAluAndSetsPc : Obligations.OpcodeBitsSayCountAluAndSetsPc := by
  intro op f h
  have hrow := formatOf_mem h
  have hcount : operandCount op ≤ 2 := operandCount_eq h ▸ operands_le_two f
  refine ⟨operandCount_eq h, hcount, ?_, opcodeTable_isAlu _ hrow, opcodeTable_setsPc _ hrow⟩
  rw [operandCount_eq_div] at hcount
  omega

/-! ## Written words (R75, R76) -/

/-- Settles O6: each written word is the encoding of its instruction, so O1 decodes it. -/
theorem writtenWordsDecode : Obligations.WrittenWordsDecode := by
  have decoded (i : Instr) : decode (encode i ++ []) = .ok (i, []) := decodeOfEncodeIsTheInstruction i []
  exact ⟨decoded .halt, decoded (.ldi 0 8), decoded (.print 4), decoded (.push 3), decoded (.pop 2),
    decoded (.call 1), decoded .ret, decoded (.compare 2 5), decoded (.jump 6), decoded (.jumpIfEqual 7),
    decoded (.jumpIfNotEqual 5), decoded (.add 1 2), decoded (.multiply 3 4), decoded (.and 5 6),
    decoded (.or 7 0), decoded (.xor 0 1), decoded (.not 6), decoded (.shiftLeft 2 3),
    decoded (.shiftRight 4 5), decoded (.modulo 6 7), rfl, rfl, rfl⟩

end Sys2Proof.Machine

/-! PROOFS of the statements about the engine (40_engine.md): how decoding fails, what a step does with the
instruction decoded, and how a run ends. -/

namespace Sys2Proof.Machine

/-! ## How decoding fails (R80, R103) -/

/-- Settles O3: no byte; or an opcode byte without a format; or a format with too few bytes after the opcode byte,
since with enough of them `decode_operandBytes` finds an instruction. -/
theorem decodeFailsExactlyWhen : Obligations.DecodeFailsExactlyWhen := by
  intro bytes e
  constructor
  · intro h
    cases bytes with
    | nil =>
      cases h
      exact .inl ⟨rfl, rfl⟩
    | cons op rest =>
      refine .inr ⟨op, rest, rfl, ?_⟩
      cases hf : formatOf op with
      | none =>
        rw [decode_unsupported hf] at h
        cases h
        exact .inl ⟨rfl, rfl⟩
      | some f =>
        by_cases hl : rest.length < f.operands
        · rw [decode_short hf hl] at h
          cases h
          exact .inr ⟨f, rfl, operandCount_eq hf ▸ hl, rfl⟩
        · obtain ⟨a, b, rest', rfl⟩ := exists_operandBytes (Nat.not_lt.mp hl)
          rw [decode_operandBytes hf] at h
          cases h
  · rintro (⟨rfl, rfl⟩ | ⟨op, rest, rfl, ⟨hf, rfl⟩ | ⟨f, hf, hl, rfl⟩⟩)
    · rfl
    · exact decode_unsupported hf rest
    · exact decode_short hf (operandCount_eq hf ▸ hl)

/-- Settles O9: DECODE raises for such an opcode, as O10 says in full, and a raise keeps the pc. -/
theorem illegalOpcodeIsNeverSkipped : Obligations.IllegalOpcodeIsNeverSkipped := fun s hs hf =>
  ⟨_, (unsupportedInstructionExactlyForIllegalOpcodes s hs).1 hf, rfl, rfl⟩

/-- Settles O11: the first operand byte that is missing is the one at address 256, and DECODE raises with it. -/
theorem operandPastMemoryRaises : Obligations.OperandPastMemoryRaises := by
  intro s f hs hf hl
  obtain ⟨k, hk, hd⟩ := decodeAt_missing hf hl
  rw [step_undecoded hs hd, raiseDecode, hk]
  rfl

/-! ## Illegal register operands (R111) -/

theorem legalReg_eq_false {b : Byte} : legalReg b = false ↔ 8 ≤ b.toNat := by
  rw [legalReg, decide_eq_false_iff_not, Nat.not_lt]

/-- The first illegal one of the operands is raised, and nothing else happens; with none, the result is any. -/
def RaisesFirstIllegal (op : Byte) (operands : List Byte) (s : State) (r : Result) : Prop :=
  ∀ b, operands.find? (fun c => !legalReg c) = some b → r = .next (s.raised .outOfRange op (.registerIndex b))

namespace RaisesFirstIllegal

variable {op : Byte} {s : State}

theorem nil (r : Result) : RaisesFirstIllegal op [] s r := nofun

/-- A check of one operand, with the checks of the operands after it in what follows. -/
theorem withReg {a : Byte} {rest : List Byte} {k : RegIndex → Result}
    (hk : ∀ r, RaisesFirstIllegal op rest s (k r)) :
    RaisesFirstIllegal op (a :: rest) s (withReg op a s k) := by
  intro b hb
  rcases withReg_cases op a s k with ⟨ha, hw⟩ | ⟨r, rfl, hw⟩
  · rw [List.find?_cons_of_pos (by simp [legalReg_eq_false.mpr ha])] at hb
    cases hb
    exact hw
  · rw [List.find?_cons_of_neg (by simp)] at hb
    exact hw.trans (hk r b hb)

theorem withRegs {a b : Byte} {k : RegIndex → RegIndex → Result} :
    RaisesFirstIllegal op [a, b] s (withRegs op a b s k) :=
  withReg fun _ => withReg fun _ => nil _

theorem aluBinary {a b : Byte} {f : Nat → Nat → Nat} : RaisesFirstIllegal op [a, b] s (aluBinary op f a b s) :=
  withRegs

theorem aluUnary {a : Byte} {f : Nat → Nat} : RaisesFirstIllegal op [a] s (aluUnary op f a s) :=
  withReg fun _ => nil _

/-- The operand is checked whether or not the jump is taken (R143, R144). -/
theorem jumpIf {a : Byte} {taken : Bool} : RaisesFirstIllegal op [a] s (jumpIf op taken a s) :=
  withReg fun _ => nil _

end RaisesFirstIllegal

/-- EXECUTE of an instruction begins by checking its register operands, A before B, under its own opcode. -/
theorem exec_raisesFirstIllegal (i : Instr) (s : State) :
    ∃ op rest, encode i = op :: rest ∧ RaisesFirstIllegal op i.regOperands s (exec i s) := by
  cases i <;> refine ⟨_, _, rfl, ?_⟩ <;> simp only [exec]
  case halt | ret => exact .nil _
  case compare | modulo => exact .withRegs
  case add | multiply | and | or | xor | shiftLeft | shiftRight => exact .aluBinary
  case not => exact .aluUnary
  case jumpIfEqual | jumpIfNotEqual => exact .jumpIf
  case ldi | print | push | pop | call | jump => exact .withReg fun _ => .nil _

/-- Settles O26: the register checks come first, and the first illegal operand is the one raised. -/
theorem illegalRegisterOperandRaises : Obligations.IllegalRegisterOperandRaises := by
  intro i s b hb
  obtain ⟨op, rest, he, hraises⟩ := exec_raisesFirstIllegal i s
  exact ⟨op, rest, he, hraises b hb⟩

/-! ## EXECUTE, then ADVANCE (R106, R107) -/

/-- The decoded instruction is as long as its opcode's operand count says. -/
theorem length_encode_of_decodeAt {s : State} {i : Instr} (h : decodeAt s = .ok i) :
    (encode i).length = 1 + operandCount (opcodeAt s) := by
  obtain ⟨f, hf, -, -⟩ := decodeAt_ok_cases h
  obtain ⟨rest, he⟩ := encode_of_decodeAt h
  rw [he, List.length_cons, length_eq_operands he hf, operandCount_eq hf, Nat.add_comm]

/-- Settles O7: ADVANCE leaves an ended run and an instruction that sets the pc alone; otherwise EXECUTE kept the
pc, and `movePc` by the instruction's length either fits or raises. -/
theorem stepRunsTheDecodedInstruction : Obligations.StepRunsTheDecodedInstruction := by
  intro s i hs hd
  obtain ⟨t, ht⟩ := exec_answers i s
  refine ⟨t, ht, ?_⟩
  rw [step_decoded hs hd, ht]
  change _ = if t.status = .running ∧ setsPc (opcodeAt s) = false then _ else _
  split
  · next hmoves =>
    obtain ⟨hr, hp⟩ := hmoves
    obtain ⟨rest, he⟩ := encode_of_decodeAt hd
    have hpc : t.pc = s.pc := exec_keeps_pc ht he hp
    rw [advance_moves hp hr, ← length_encode_of_decodeAt hd]
    split
    · next hl => rw [movePc_fits _ (hpc ▸ hl), State.setPc, hpc]
    · next hl => rw [movePc_past _ (hpc ▸ Nat.not_lt.mp hl), State.raised, hpc, opcodeAt]
  · next hstays =>
    by_cases hr : t.status = .running
    · exact advance_setsPc (Bool.eq_true_of_not_eq_false fun hp => hstays ⟨hr, hp⟩) t
    · exact advance_ended _ hr

/-! ## How a run ends (R101, R108) -/

/-- Settles O12: EXECUTE of HALT writes the status alone, and FETCH of its byte runs it at every address. -/
theorem haltStopsAndChangesNothingElse : Obligations.HaltStopsAndChangesNothingElse :=
  fun _ => ⟨rfl, step_halt⟩

theorem State.ended.not_running {s : State} (h : s.ended) : s.status ≠ .running := by
  rcases h with h | h <;> simp [h]

/-- Settles O14: by induction on the steps of the run; each answers the ended state it starts from. -/
theorem endedRunNeverChanges : Obligations.EndedRunNeverChanges := by
  intro s t hs hreach
  induction hreach with
  | refl => rfl
  | tail _ h ih =>
    rw [ih, step_ended hs.not_running] at h
    cases h
    rfl

end Sys2Proof.Machine

/-! PROOFS of the statements about LDI and PRINT (41_register_io.md). Each checks its register operand (R111), and
with a legal one there is only the update of the state left. -/

namespace Sys2Proof.Machine

theorem exec_ldi (r : RegIndex) (imm : Byte) (s : State) :
    exec (.ldi (regByte r) imm) s = .next (s.setReg r imm) := by
  rw [exec, execLdi, withReg_regByte]

/-- Settles O35: LDI is the register write `State.setReg`, which keeps every other field. -/
theorem ldiLoadsTheImmediate : Obligations.LdiLoadsTheImmediate := exec_ldi

/-- Settles O36: PRINT is `State.emit` of the register, which keeps every field but the output. -/
theorem printEmitsTheRegister : Obligations.PrintEmitsTheRegister := exec_print

end Sys2Proof.Machine

/-! PROOFS of the statements about PUSH and POP (42_stack.md). One instruction at a time, each does what the shared
stack operation does (R65); over a sequence, the cells from SP up are what balanced code must not touch (R132). -/

namespace Sys2Proof.Machine

/-! ## One PUSH, one POP (R130, R131) -/

theorem exec_push_overflow {s : State} (hsp : s.sp = 0) (r : RegIndex) :
    exec (.push (regByte r)) s = .next (s.raised .outOfRange Opcode.push (.stackOverflow (-1))) := by
  rw [exec, execPush, withReg_regByte, pushByte_overflow _ _ hsp]

/-- Settles O37: the two sides of SP = 0. -/
theorem pushStoresBelowSp : Obligations.PushStoresBelowSp :=
  fun r _ => ⟨fun hsp => exec_push_stores hsp r, fun hsp => exec_push_overflow hsp r⟩

theorem exec_pop_loads {s : State} (hsp : s.sp.toNat < 0xF4) (r : RegIndex) : exec (.pop (regByte r)) s =
    .next ((s.setReg Config.spIndex (s.sp + 1)).setReg r (Memory.read s.mem s.sp.toNat)) := by
  rw [exec, execPop, withReg_regByte, popByte_loads _ hsp]

theorem exec_pop_underflow {s : State} (hsp : 0xF4 ≤ s.sp.toNat) (r : RegIndex) :
    exec (.pop (regByte r)) s = .next (s.raised .outOfRange Opcode.pop (.stackUnderflow s.sp)) := by
  rw [exec, execPop, withReg_regByte, popByte_underflow _ hsp]

/-- Settles O38: the two sides of SP = 0xF4. -/
theorem popLoadsFromSp : Obligations.PopLoadsFromSp :=
  fun r _ => ⟨fun hsp => exec_pop_loads hsp r, fun hsp => exec_pop_underflow hsp r⟩

theorem State.sp_setReg_sp (s : State) (v : Word) : (s.setReg Config.spIndex v).sp = v :=
  s.reg_setReg_self _ v

/-- A PUSH that did not fault stored. -/
theorem exec_push_running {s t : State} {r : RegIndex} (h : exec (.push (regByte r)) s = .next t)
    (ht : t.status = .running) :
    s.sp ≠ 0 ∧ t.sp = s.sp - 1 ∧ t.mem = Memory.write s.mem (s.sp - 1).toNat (s.reg r) := by
  by_cases hsp : s.sp = 0
  · rw [exec_push_overflow hsp] at h
    cases h
    cases ht
  · rw [exec_push_stores hsp] at h
    cases h
    exact ⟨hsp, s.sp_setReg_sp _, rfl⟩

/-- A POP that did not fault loaded. -/
theorem exec_pop_running {s t : State} {r : RegIndex} (h : exec (.pop (regByte r)) s = .next t)
    (ht : t.status = .running) :
    t = (s.setReg Config.spIndex (s.sp + 1)).setReg r (Memory.read s.mem s.sp.toNat) := by
  by_cases hsp : s.sp.toNat < 0xF4
  · rw [exec_pop_loads hsp] at h
    cases h
    rfl
  · rw [exec_pop_underflow (Nat.not_lt.mp hsp)] at h
    cases h
    cases ht

/-! ## Runs of a sequence that end Running -/

theorem execAll_cons_running {i : Instr} {is : List Instr} {s t : State} (h : execAll (i :: is) s = .next t)
    (ht : t.status = .running) : ∃ u, exec i s = .next u ∧ u.status = .running ∧ execAll is u = .next t := by
  obtain ⟨u, hu⟩ := exec_answers i s
  rw [execAll, hu] at h
  cases hs : u.status with
  | running => exact ⟨u, hu, hs, by simpa only [hs] using h⟩
  | halted | faulted =>
    simp only [hs, Host.Outcome.next.injEq] at h
    rw [← h, hs] at ht
    cases ht

theorem execAll_append_running {xs ys : List Instr} {s t : State} (hs : s.status = .running)
    (h : execAll (xs ++ ys) s = .next t) (ht : t.status = .running) :
    ∃ u, execAll xs s = .next u ∧ u.status = .running ∧ execAll ys u = .next t := by
  induction xs generalizing s with
  | nil => exact ⟨s, rfl, hs, h⟩
  | cons i xs ih =>
    obtain ⟨u, hu, hur, h⟩ := execAll_cons_running h ht
    obtain ⟨v, hv, hvr, h⟩ := ih hur h
    exact ⟨v, by simpa only [execAll, hu, hur] using hv, hvr, h⟩

/-! ## What balanced code keeps (R132) -/

/-- SP is back where it was, and the cells from there up hold what they held: they are the caller's stack. -/
structure StackKept (s t : State) : Prop where
  wf : Memory.wf t.mem = true
  sp : t.sp = s.sp
  above : ∀ a, s.sp.toNat ≤ a → Memory.read t.mem a = Memory.read s.mem a

theorem StackKept.trans {s t u : State} (h : StackKept s t) (h' : StackKept t u) : StackKept s u :=
  ⟨h'.wf, h'.sp.trans h.sp, fun a ha => (h'.above a (h.sp ▸ ha)).trans (h.above a ha)⟩

/-- A POP's write to a register other than SP is not seen on the stack. -/
theorem StackKept.setReg {s t : State} (h : StackKept s t) {r : RegIndex} (hr : r ≠ Config.spIndex) (v : Word) :
    StackKept s (t.setReg r v) :=
  ⟨h.wf, (t.reg_setReg_ne v hr).trans h.sp, h.above⟩

/-- Every run of the sequence that ends without a fault keeps the stack it started with. -/
def KeepsStack (is : List Instr) : Prop :=
  ∀ s t : State, s.status = .running → Memory.wf s.mem = true → execAll is s = .next t → t.status = .running →
    StackKept s t

/-- The core of R132: after a push of `x`, what keeps the stack leaves `x` where SP points, and one cell up from there
lies the stack as it was before the push. -/
theorem StackKept.of_push {s u v : State} {x : Word} (hm : Memory.wf s.mem = true) (hsp : s.sp ≠ 0)
    (husp : u.sp = s.sp - 1) (humem : u.mem = Memory.write s.mem (s.sp - 1).toNat x) (hk : StackKept u v) :
    Memory.read v.mem v.sp.toNat = x ∧ StackKept s (v.setReg Config.spIndex (v.sp + 1)) := by
  obtain ⟨hwf, hvsp, habove⟩ := hk
  rw [husp] at hvsp habove
  rw [humem] at habove
  have hbelow : (s.sp - 1).toNat < s.sp.toNat := by bv_omega
  rw [hvsp]
  refine ⟨?_, hwf, ?_, fun a ha => ?_⟩
  · rw [habove _ le_rfl, Memory.read_write_self hm]
  · rw [State.sp_setReg_sp, BitVec.sub_add_cancel]
  · exact (habove a (by omega)).trans (Memory.read_write_ne _ _ (by omega))

/-- So PUSH, such code and POP restore the stack; then the POP's destination is written, last. -/
theorem KeepsStack.push_pop {mid : List Instr} (hmid : KeepsStack mid) {ra rb : RegIndex} {s t : State}
    (hm : Memory.wf s.mem = true) (h : execAll (.push (regByte ra) :: mid ++ [.pop (regByte rb)]) s = .next t)
    (ht : t.status = .running) : ∃ w, StackKept s w ∧ t = w.setReg rb (s.reg ra) := by
  obtain ⟨u, hpush, hur, h⟩ := execAll_cons_running h ht
  obtain ⟨v, hv, hvr, h⟩ := execAll_append_running hur h ht
  obtain ⟨_, hpop, htr, h⟩ := execAll_cons_running h ht
  cases h
  obtain ⟨hsp, husp, humem⟩ := exec_push_running hpush hur
  have hum : Memory.wf u.mem = true := humem ▸ Memory.wf_write hm _ (s.sp - 1).isLt
  obtain ⟨hbyte, hk⟩ := (hmid u v hur hum hv hvr).of_push hm hsp husp humem
  exact ⟨_, hk, hbyte ▸ exec_pop_running hpop htr⟩

/-- A balanced sequence keeps the stack: induction over how it is built. -/
theorem Balanced.keepsStack {is : List Instr} (h : Balanced is) : KeepsStack is := by
  induction h with
  | nil =>
    intro s t _ hm h _
    cases h
    exact ⟨hm, rfl, fun _ _ => rfl⟩
  | pair ra rb hrb _ ih =>
    intro s t _ hm h ht
    obtain ⟨w, hk, rfl⟩ := ih.push_pop hm h ht
    exact hk.setReg hrb _
  | append _ _ ihx ihy =>
    intro s t hs hm h ht
    obtain ⟨u, hu, hur, h⟩ := execAll_append_running hs h ht
    have hk := ihx s u hs hm hu hur
    exact hk.trans (ihy u t hur hk.wf h ht)

/-- Settles O54: the code between keeps the stack, so the POP writes what the PUSH stored, after SP is restored. -/
theorem stackIsLastInFirstOut : Obligations.StackIsLastInFirstOut := by
  intro mid ra rb s t hmid _ hm h ht
  obtain ⟨w, hk, rfl⟩ := hmid.keepsStack.push_pop hm h ht
  exact ⟨w.reg_setReg_self rb _, fun hrb => (hk.setReg hrb _).sp⟩

end Sys2Proof.Machine

/-! PROOFS of the statements about CALL, RETURN and the jumps (43_control.md). Each result is what the shared operation
does (R65, R106) once the register operand is checked (R111); a RETURN right after a CALL is a pop right after a push. -/

namespace Sys2Proof.Machine

/-! ## CALL (R140) -/

theorem exec_call_past {s : State} (hpc : 256 ≤ s.pc.toNat + 2) (r : RegIndex) : exec (.call (regByte r)) s =
    .next (s.raised .outOfRange Opcode.call (.returnAddress (s.pc.toNat + 2))) := by
  rw [exec, execCall, withReg_regByte, if_pos hpc, raise_eq]

theorem exec_call_overflow {s : State} (hpc : s.pc.toNat + 2 < 256) (hsp : s.sp = 0) (r : RegIndex) :
    exec (.call (regByte r)) s = .next (s.raised .outOfRange Opcode.call (.stackOverflow (-1))) := by
  rw [exec, execCall, withReg_regByte, if_neg (Nat.not_le.mpr hpc), pushByte_overflow _ _ hsp]

/-- Settles O39: the return address is checked first, then SP. -/
theorem callPushesReturnAddressAndJumps : Obligations.CallPushesReturnAddressAndJumps :=
  fun r _ => ⟨fun hpc hsp => exec_call_stores hsp hpc r, fun hpc => exec_call_past hpc r,
    fun hpc hsp => exec_call_overflow hpc hsp r⟩

/-- A CALL that did not fault pushed its return address. -/
theorem exec_call_running {a : Byte} {s t : State} (h : exec (.call a) s = .next t) (ht : t.status = .running) :
    s.pc.toNat + 2 < 256 ∧ s.sp ≠ 0 ∧ t.sp = s.sp - 1 ∧
      t.mem = Memory.write s.mem (s.sp - 1).toNat (BitVec.ofNat 8 (s.pc.toNat + 2)) := by
  cases exec_effect h with
  | raised => cases ht
  | call r hpc hsp => exact ⟨hpc, hsp, s.sp_setReg_sp _, rfl⟩
  | register _ _ _ hm | jump _ _ hm => simp at hm

/-! ## RETURN (R141) -/

theorem exec_ret_loads {s : State} (hsp : s.sp.toNat < 0xF4) : exec .ret s =
    .next ((s.setReg Config.spIndex (s.sp + 1)).setPc (Memory.read s.mem s.sp.toNat)) := by
  rw [exec, execReturn, popByte_loads _ hsp]

theorem exec_ret_underflow {s : State} (hsp : 0xF4 ≤ s.sp.toNat) :
    exec .ret s = .next (s.raised .outOfRange Opcode.ret (.stackUnderflow s.sp)) := by
  rw [exec, execReturn, popByte_underflow _ hsp]

/-- Settles O40: the two sides of SP = 0xF4. -/
theorem returnPopsThePc : Obligations.ReturnPopsThePc := fun _ => ⟨exec_ret_loads, exec_ret_underflow⟩

/-- Settles O53: the CALL leaves SP one lower, so below 0xF4 and on the return address. The RETURN reads it from there
and moves SP back up (`StackKept.of_push`, with no code between); the other registers are never written. -/
theorem returnComesBackAfterCall : Obligations.ReturnComesBackAfterCall := by
  intro a s t u hm _ hbound hcall ht hret
  obtain ⟨hpc, hsp, htsp, htmem⟩ := exec_call_running hcall ht
  obtain ⟨hothers, -⟩ := pushAndCallFrame _ a s t (by simp) hcall
  have hbelow : t.sp.toNat < 0xF4 := by
    change s.sp.toNat ≤ 0xF4 at hbound
    bv_omega
  have htm : Memory.wf t.mem = true := htmem ▸ Memory.wf_write hm _ (s.sp - 1).isLt
  obtain ⟨hread, hkept⟩ := StackKept.of_push hm hsp htsp htmem ⟨htm, rfl, fun _ _ => rfl⟩
  rw [exec_ret_loads hbelow, hread] at hret
  cases hret
  refine ⟨ht, Nat.mod_eq_of_lt hpc, fun r => ?_⟩
  by_cases hr : r = Config.spIndex
  · rw [hr]
    exact hkept.sp
  · exact (t.reg_setReg_ne _ (Ne.symm hr)).trans (hothers r hr)

/-! ## JUMP (R142) -/

theorem exec_jump (r : RegIndex) (s : State) : exec (.jump (regByte r)) s = .next (s.setPc (s.reg r)) := by
  rw [exec, execJump, withReg_regByte]

theorem exec_jump_illegal {b : Byte} (hb : 8 ≤ b.toNat) (s : State) :
    exec (.jump b) s = .next (s.raised .outOfRange Opcode.jump (.registerIndex b)) := by
  rw [exec, execJump, withReg_illegal _ hb]

/-- A step of an instruction that sets the pc itself is EXECUTE alone (R106). -/
theorem step_eq_exec_of_setsPc {s : State} {i : Instr} (hs : s.status = .running) (hd : decodeAt s = .ok i)
    (hp : setsPc (opcodeAt s) = true) : step s = exec i s := by
  obtain ⟨t, ht⟩ := exec_answers i s
  rw [step_decoded hs hd, ht, advance_setsPc hp]

/-- FETCH of JUMP's byte, with its operand byte in memory, runs JUMP on that byte. -/
theorem step_jump {s : State} (hs : s.status = .running) (hop : opcodeAt s = Opcode.jump) (hpc : s.pc.toNat < 255) :
    step s = exec (.jump (Memory.read s.mem (s.pc.toNat + 1))) s := by
  have hf : formatOf (opcodeAt s) = some (.r .jump) := by rw [hop, formatOf_jump]
  have hfits : s.pc.toNat + 1 < 256 := by omega
  have hsets : setsPc (opcodeAt s) = true := by rw [hop]; rfl
  exact step_eq_exec_of_setsPc hs (decodeAt_ok hf hfits) hsets

/-- Settles O41: with the operand byte in memory a step is EXECUTE of JUMP, which checks its register; at pc 255 the
operand byte is at address 256 and DECODE raises, as O11 says. -/
theorem jumpSetsPcToTheRegister : Obligations.JumpSetsPcToTheRegister := by
  refine ⟨exec_jump, fun s hs hop => ⟨fun r hpc hb => ?_, fun hraise => ?_⟩⟩
  · rw [step_jump hs hop hpc, hb]
    exact exec_jump r s
  · change opcodeAt s = Opcode.jump at hop
    by_cases hpc : s.pc.toNat < 255
    · have hb := hraise.resolve_left hpc.ne
      have hstep := (step_jump hs hop hpc).trans (exec_jump_illegal hb s)
      exact ⟨_, _, hstep, rfl, rfl, rfl, rfl⟩
    · have hf : formatOf (opcodeAt s) = some (.r .jump) := by rw [hop, formatOf_jump]
      have hpast : 256 ≤ s.pc.toNat + 1 := by omega
      have hstep := operandPastMemoryRaises s _ hs hf hpast
      exact ⟨_, _, hstep, rfl, rfl, rfl, rfl⟩

/-! ## The conditional jumps (R143, R144) -/

section
variable {op : Byte} {taken : Bool} {s : State}

theorem jumpIf_taken (h : taken = true) (r : RegIndex) :
    jumpIf op taken (regByte r) s = .next (s.setPc (s.reg r)) := by
  rw [jumpIf, withReg_regByte, if_pos h]

theorem jumpIf_not_taken (h : taken = false) (r : RegIndex) :
    jumpIf op taken (regByte r) s = movePc op 2 s := by
  rw [jumpIf, withReg_regByte, if_neg (by simp [h])]

theorem jumpIf_falls_through (h : taken = false) (hpc : s.pc.toNat + 2 < 256) (r : RegIndex) :
    jumpIf op taken (regByte r) s = .next (s.setPc (s.pc + 2)) := by
  rw [jumpIf_not_taken h, movePc_fits op hpc, ofNat_toNat_add_two]

theorem jumpIf_past (h : taken = false) (hpc : 256 ≤ s.pc.toNat + 2) (r : RegIndex) :
    jumpIf op taken (regByte r) s = .next (s.raised .outOfRange op (.nextAddress (s.pc.toNat + 2))) := by
  rw [jumpIf_not_taken h, movePc_past op hpc]

end

/-- Settles O42: the conditional jump that is taken where FL.E is 1. -/
theorem jumpIfEqualJumpsOnEqual : Obligations.JumpIfEqualJumpsOnEqual :=
  fun r _ => ⟨fun h => jumpIf_taken h r, fun h hpc => jumpIf_falls_through h hpc r,
    fun h hpc => jumpIf_past h hpc r⟩

/-- Settles O43: the conditional jump that is taken where the complement of FL.E is 1. -/
theorem jumpIfNotEqualJumpsOnNotEqual : Obligations.JumpIfNotEqualJumpsOnNotEqual :=
  fun r _ => ⟨fun h => jumpIf_taken (by rw [h]; rfl) r, fun h hpc => jumpIf_falls_through (by rw [h]; rfl) hpc r,
    fun h hpc => jumpIf_past (by rw [h]; rfl) hpc r⟩

end Sys2Proof.Machine

/-! PROOFS of the statements about the ALU (44_alu.md). Once both register operands are legal (R111), a result is a register
write (R160); what is written is the model's computation on numbers, modulo 256 (R171), read as the operation on words. -/

namespace Sys2Proof.Machine

/-! ## The operand forms, at registers (R160) -/

section
variable (op : Byte)

theorem aluBinary_regByte (f : Nat → Nat → Nat) (r q : RegIndex) (s : State) :
    aluBinary op f (regByte r) (regByte q) s = .next (s.storeReg r (f (s.reg r).toNat (s.reg q).toNat)) := by
  rw [aluBinary, withRegs_regByte]

/-- Where the computation on numbers is an operation on words, that word is written. -/
theorem aluBinary_word {f : Nat → Nat → Nat} {g : Word → Word → Word}
    (h : ∀ x y : Word, BitVec.ofNat 8 (f x.toNat y.toNat) = g x y) (r q : RegIndex) (s : State) :
    aluBinary op f (regByte r) (regByte q) s = .next (s.setReg r (g (s.reg r) (s.reg q))) := by
  rw [aluBinary_regByte, State.storeReg, h]

theorem aluUnary_word {f : Nat → Nat} {g : Word → Word} (h : ∀ x : Word, BitVec.ofNat 8 (f x.toNat) = g x)
    (r : RegIndex) (s : State) : aluUnary op f (regByte r) s = .next (s.setReg r (g (s.reg r))) := by
  rw [aluUnary, withReg_regByte, State.storeReg, h]

end

/-! ## ADD and MULTIPLY (R161, R162, R171) -/

/-- A register write stores its value modulo 256 (R23). -/
theorem State.storeReg_mod (s : State) (r : RegIndex) (v : Nat) : s.storeReg r (v % 256) = s.storeReg r v := by
  have hword : BitVec.ofNat 8 (v % 256) = BitVec.ofNat 8 v := BitVec.eq_of_toNat_eq (Nat.mod_mod v 256)
  rw [State.storeReg, hword, State.storeReg]

/-- Settles O44: both store the exact result, and the store is what reduces it. -/
theorem addAndMultiplyWrap : Obligations.AddAndMultiplyWrap := fun ra rb s =>
  ⟨(aluBinary_regByte _ aluAdd ra rb s).trans (congrArg _ (s.storeReg_mod ra _).symm),
    (aluBinary_regByte _ aluMultiply ra rb s).trans (congrArg _ (s.storeReg_mod ra _).symm)⟩

/-! ## MODULO (R163) -/

section
variable {s : State} {q : RegIndex}

theorem exec_modulo_divides (h : s.reg q ≠ 0) (r : RegIndex) : exec (.modulo (regByte r) (regByte q)) s =
    .next (s.storeReg r (aluModulo (s.reg r).toNat (s.reg q).toNat)) := by
  rw [exec, execModulo, withRegs_regByte, if_neg h]

theorem exec_modulo_by_zero (h : s.reg q = 0) (r : RegIndex) : exec (.modulo (regByte r) (regByte q)) s =
    .next (s.raised .arithmeticError Opcode.modulo .moduloByZero) := by
  rw [exec, execModulo, withRegs_regByte, if_pos h, raise_eq]

end

/-- Settles O45: a divisor of 0, and the others. -/
theorem moduloWritesTheRemainder : Obligations.ModuloWritesTheRemainder :=
  fun ra _ _ => ⟨fun h => exec_modulo_divides h ra, fun h => exec_modulo_by_zero h ra⟩

/-! ## COMPARE (R164) -/

/-- Settles O46: the flags alone are written, and each is one side of the unsigned order (`compareFlags_eq`). -/
theorem compareSetsTheOrder : Obligations.CompareSetsTheOrder := by
  intro ra rb s
  rw [exec_compare, compareFlags_eq]
  rfl

/-! ## AND, OR, XOR and NOT (R165 to R168) -/

/-- Settles O47: each computation on numbers is the operation on the words, bit by bit. -/
theorem bitwiseOperationsWriteTheirResult : Obligations.BitwiseOperationsWriteTheirResult := fun ra rb s =>
  ⟨aluBinary_word _ aluAnd_word ra rb s, aluBinary_word _ aluOr_word ra rb s, aluBinary_word _ aluXor_word ra rb s,
    aluUnary_word _ aluNot_word ra s⟩

/-! ## SHIFT-LEFT and SHIFT-RIGHT (R169, R170) -/

/-- Settles O48: the words written are `A <<< B` and `A >>> B`; a shift is a multiplication or a division by a power of
two, and a shift by the width or more leaves no bit. -/
theorem shiftsUseTheWholeAmount : Obligations.ShiftsUseTheWholeAmount := by
  intro ra rb s
  refine ⟨s.reg ra <<< s.reg rb, s.reg ra >>> s.reg rb, aluBinary_word _ aluShiftLeft_word ra rb s,
    aluBinary_word _ aluShiftRight_word ra rb s, ?_, ?_, fun h => ⟨?_, ?_⟩⟩
  · rw [BitVec.shiftLeft_eq', BitVec.toNat_shiftLeft, Nat.shiftLeft_eq]
  · rw [BitVec.ushiftRight_eq', BitVec.toNat_ushiftRight, Nat.shiftRight_eq_div_pow]
  · exact BitVec.shiftLeft_eq_zero h
  · exact BitVec.ushiftRight_eq_zero h

end Sys2Proof.Machine

/-! PROOFS of the statements about faults (60_exceptions.md). A step that faults does so in one of two ways: it raises in the
state it started from (`StepCause`: DECODE and EXECUTE), or ADVANCE raises in the state EXECUTE left (`AdvancesPastMemory`).
`step_faulted_cases` says so once. -/

namespace Sys2Proof.Machine

/-! ## Every step answers (R107, R200) -/

theorem Answers.raiseDecode (e : DecodeError) (s : State) : Answers (raiseDecode e s) := by
  cases e with
  | unsupported | missingByte => exact Answers.next _

theorem Answers.advance (op : Byte) (t : State) : Answers (advance op (.next t)) := by
  by_cases hr : t.status = .running
  · cases hp : setsPc op with
    | true => exact ⟨t, advance_setsPc hp t⟩
    | false => exact advance_moves hp hr ▸ Answers.movePc ..
  · exact ⟨t, advance_ended op hr⟩

/-- Settles O15: an ended run answers its own state; a running one what DECODE raises or what ADVANCE makes of the state
that EXECUTE answers. -/
theorem everyStepAnswersANextState : Obligations.EveryStepAnswersANextState := by
  intro s
  by_cases hs : s.status = .running
  · cases hd : decodeAt s with
    | error e => exact step_undecoded hs hd ▸ Answers.raiseDecode e s
    | ok i =>
      obtain ⟨u, hu⟩ := exec_answers i s
      exact step_decoded hs hd ▸ hu ▸ Answers.advance _ u
  · exact ⟨s, step_ended hs⟩

/-! ## The two ways a step faults (R205, R206) -/

/-- Why a step raises a fault in the state it started from, with the fault's kind and detail (R205, the classes before
ADVANCE). -/
inductive StepCause (s : State) : FaultKind → FaultDetail → Prop where
  | opcode : formatOf (opcodeAt s) = none → StepCause s .unsupportedInstruction .empty
  | operand {f : Format} : formatOf (opcodeAt s) = some f → 256 ≤ s.pc.toNat + f.operands →
      StepCause s .outOfRange (.address 256)
  | execute {i : Instr} {kind : FaultKind} {detail : FaultDetail} :
      decodeAt s = .ok i → Cause i s kind detail → StepCause s kind detail

/-- EXECUTE that makes a running machine Faulted raised, for one of its causes. -/
theorem exec_faulted {i : Instr} {s t : State} (h : exec i s = .next t) (hs : s.status = .running)
    (ht : t.status = .faulted) :
    ∃ op rest kind detail, encode i = op :: rest ∧ Cause i s kind detail ∧ t = s.raised kind op detail := by
  cases exec_effect h with
  | raised he hc => exact ⟨_, _, _, _, he, hc, rfl⟩
  | halt => cases ht
  | _ => exact absurd (hs.symm.trans ht) nofun

/-- Where the pc would reach 256, ADVANCE raises in the state that EXECUTE left, and the pc is still the step's own. -/
theorem AdvancesPastMemory.step {s u : State} (h : AdvancesPastMemory s u) (hs : s.status = .running) :
    u.pc = s.pc ∧ step s = .next (u.raised .outOfRange (opcodeAt s) (.nextAddress 256)) := by
  obtain ⟨i, hd, hu, hr, hp, hl⟩ := h
  obtain ⟨rest, he⟩ := encode_of_decodeAt hd
  have hpc : u.pc = s.pc := exec_keeps_pc hu he hp
  have hend : u.pc.toNat + (1 + operandCount (opcodeAt s)) = 256 := by
    rw [hpc, ← length_encode_of_decodeAt hd, hl]
  refine ⟨hpc, ?_⟩
  rw [step_decoded hs hd, hu, advance_moves hp hr, movePc_past _ hend.ge, hend]

/-- A step that faults raised in the state it started from, with the opcode fetched in the record, or it is ADVANCE's
fault. -/
theorem step_faulted_cases {s t : State} (hs : s.status = .running) (h : step s = .next t) (ht : t.status = .faulted) :
    (∃ kind detail, StepCause s kind detail ∧ t = s.raised kind (opcodeAt s) detail) ∨
    ∃ u, AdvancesPastMemory s u := by
  rcases step_cases hs h with ⟨hf, rfl⟩ | ⟨f, hf, hl, rfl⟩ | ⟨i, f, u, hd, hf, hl, -, hu, hcase⟩
  · exact .inl ⟨_, _, .opcode hf, rfl⟩
  · exact .inl ⟨_, _, .operand hf hl, rfl⟩
  · obtain ⟨rest, he⟩ := encode_of_decodeAt hd
    rcases hcase with ⟨-, rfl⟩ | ⟨hr, -, rfl⟩ | ⟨hr, -, -, rfl⟩ | ⟨hr, hp, hm, -⟩
    · obtain ⟨op, _, kind, detail, he', hc, rfl⟩ := exec_faulted hu hs ht
      cases he.symm.trans he'
      exact .inl ⟨kind, detail, .execute hd hc, rfl⟩
    · exact absurd (hr.symm.trans ht) nofun
    · exact absurd (hr.symm.trans ht) nofun
    · have hlen : (encode i).length = 1 + f.operands := by rw [length_encode_of_decodeAt hd, operandCount_eq hf]
      rw [exec_keeps_pc hu he hp] at hm
      exact .inr ⟨u, i, hd, hu, hr, hp, by omega⟩

/-- Settles O23: both ways of faulting record the pc of the state they raise in, which is the step's own. -/
theorem faultNamesTheInstruction : Obligations.FaultNamesTheInstruction := by
  intro s t hs h ht
  rcases step_faulted_cases hs h ht with ⟨kind, detail, -, rfl⟩ | ⟨u, hadv⟩
  · exact ⟨rfl, _, rfl, rfl, rfl⟩
  · obtain ⟨hpc, hstep⟩ := hadv.step hs
    cases h.symm.trans hstep
    exact ⟨hpc, _, rfl, hpc, rfl⟩

/-- Settles O24: the two ways of faulting, each of which writes the status and the fault record alone. -/
theorem faultLeavesTheRestOfTheState : Obligations.FaultLeavesTheRestOfTheState := by
  refine fun s t hs h ht => ⟨fun u hadv => ?_, fun hno => ?_⟩
  · cases h.symm.trans (hadv.step hs).2
    rfl
  · rcases step_faulted_cases hs h ht with ⟨kind, detail, -, rfl⟩ | ⟨u, hadv⟩
    · rfl
    · exact absurd hadv (hno u)

/-! ## ArithmeticError (R163, R203) -/

/-- The one cause of an ArithmeticError is a MODULO of two registers whose divisor holds 0. -/
theorem StepCause.modulo_of_arithmeticError {s : State} {detail : FaultDetail}
    (h : StepCause s .arithmeticError detail) : detail = .moduloByZero ∧
      ∃ ra rb, decodeAt s = .ok (.modulo (regByte ra) (regByte rb)) ∧ s.reg rb = 0 := by
  cases h with
  | execute hd hc =>
    cases hc with
    | moduloByZero hz => exact ⟨rfl, _, _, hd, hz⟩

/-- An ArithmeticError is never ADVANCE's, so its cause lies in the state the step started from. -/
theorem stepCause_of_arithmeticError {s t : State} {r : FaultRecord} (hs : s.status = .running) (h : step s = .next t)
    (ht : t.status = .faulted) (hr : t.fault = some r) (hk : r.kind = .arithmeticError) :
    StepCause s .arithmeticError r.detail := by
  rcases step_faulted_cases hs h ht with ⟨kind, detail, hc, rfl⟩ | ⟨u, hadv⟩
  · cases hr
    cases hk
    exact hc
  · cases h.symm.trans (hadv.step hs).2
    cases hr
    cases hk

theorem step_modulo_by_zero {s : State} {ra rb : RegIndex} (hs : s.status = .running)
    (hd : decodeAt s = .ok (.modulo (regByte ra) (regByte rb))) (hz : s.reg rb = 0) :
    step s = .next (s.raised .arithmeticError Opcode.modulo .moduloByZero) := by
  rw [step_decoded hs hd, exec_modulo_by_zero hz, advance_ended _ (by simp)]

/-- A fault record is there only in Faulted. -/
theorem State.Inv.faulted {s : State} {r : FaultRecord} (h : s.Inv) (hr : s.fault = some r) : s.status = .faulted := by
  simpa [hr] using h.fault_present

/-- Settles O25: the state after the step has the invariant, so a record in it is of this step's fault, whose cause is the
MODULO's; and that MODULO raises. -/
theorem arithmeticErrorExactlyForModuloByZero : Obligations.ArithmeticErrorExactlyForModuloByZero := by
  intro s t hinv hs h
  have hcause {r : FaultRecord} (hr : t.fault = some r) (hk : r.kind = .arithmeticError) :=
    have ht := (everyStepKeepsTheInvariant s t hinv h).faulted hr
    (stepCause_of_arithmeticError hs h ht hr hk).modulo_of_arithmeticError
  refine ⟨⟨fun ⟨r, hr, hk⟩ => (hcause hr hk).2, fun ⟨ra, rb, hd, hz⟩ => ?_⟩, fun r hr hk => (hcause hr hk).1⟩
  cases h.symm.trans (step_modulo_by_zero hs hd hz)
  exact ⟨_, rfl, rfl⟩

end Sys2Proof.Machine

/-! PROOFS of the statements about reset and runs (70_reset_and_hazards.md). The invariant holds at reset, loading an image
keeps it, and so does every step; a run is these three. -/

namespace Sys2Proof.Machine

/-! ## The state after reset (R230) -/

theorem State.reg_reset (r : RegIndex) :
    State.reset.reg r = if r = Config.spIndex then Config.spInit else Config.regInit := by
  simp [State.reg, State.reset, Vector.getElem_set, Fin.ext_iff, eq_comm]

/-- Settles O18: SP is the one register set apart, and memory lists no cell. -/
theorem resetState : Obligations.ResetState :=
  ⟨State.reg_reset, rfl, rfl, Memory.read_nil, rfl, rfl, rfl⟩

/-! ## The invariant of a run (R230, R232) -/

/-- Settles O20: no fault has been taken at reset, memory lists no cell, and the flags are clear. -/
theorem resetKeepsTheInvariant : Obligations.ResetKeepsTheInvariant :=
  .of_no_fault Memory.wf_nil rfl rfl (by decide)

/-- Writing a canonical memory keeps the invariant: no other clause reads memory. -/
theorem State.Inv.setMem {s : State} {m : Memory} (h : s.Inv) (hm : Memory.wf m = true) : (s.setMem m).Inv :=
  { h with memory := hm }

theorem loadImage_inv {image : List Nat} {s : State} (h : loadImage image = some s) : s.Inv := by
  obtain ⟨-, rfl⟩ := loadImage_eq_some_iff.mp h
  have hreset : State.reset.Inv := resetKeepsTheInvariant
  exact hreset.setMem (Memory.wf_writeBytes hreset.memory _ _)

/-- Every state reached from one with the invariant has it. -/
theorem Reaches.inv {s t : State} (h : Reaches s t) (hs : s.Inv) : t.Inv := by
  induction h with
  | refl => exact hs
  | tail _ hstep ih => exact everyStepKeepsTheInvariant _ _ ih hstep

/-- Settles O22: a run starts in the state its image is loaded into, and its steps keep the invariant. -/
theorem everyReachableStateHasTheInvariant : Obligations.EveryReachableStateHasTheInvariant := by
  rintro s ⟨image, start, hload, hreach⟩
  exact hreach.inv (loadImage_inv hload)

end Sys2Proof.Machine
